-- ==== Sys2Proof/Word.lean ====
section
/-! DEFINITION. The word types of the machine (spec/00_scope.md R8). -/

namespace Sys2Proof

/-- `u8`: a register, a memory byte, an immediate. -/
abbrev Byte := BitVec 8

/-- `u16`: an instruction word, the program counter, a stack slot. -/
abbrev Word := BitVec 16

/-- `u12`: the address field NNN. -/
abbrev Addr := BitVec 12

/-- `u4` used as a register index; every value names a register (spec/30_encoding.md R73). -/
abbrev RegIdx := BitVec 4

/-- `u4` used as a keypad index 0..15 (spec/00_scope.md R13). -/
abbrev KeyIdx := BitVec 4

end Sys2Proof
end

