-- ==== Sys2Proof/Config.lean ====
section
/-! DEFINITION. What an implementation fixes (spec/00_scope.md R4): the block's sizes, its two open parameters, and the
free byte of CXNN. -/

namespace Sys2Proof.Config

/-- MEM_SIZE: addresses 0x000 to 0xFFF (R4). -/
def memSize : Nat := 4096

/-- The highest address a two-byte fetch may start at (spec/20_memory.md R54). -/
def lastFetch : Nat := 0xFFE

/-- PROGRAM_START: where `load` puts the image and where `pc` starts (R4). -/
def programStart : Nat := 0x200

/-- MAX_IMAGE: the longest image `load` takes, in bytes (R4; spec/70_reset_and_hazards.md R243). -/
def maxImage : Nat := 3584

/-- STACK_DEPTH (R4). -/
abbrev stackDepth : Nat := 48

/-- UNKNOWN_POLICY: what executing an `Unknown` word does (R4; spec/60_exceptions.md R204). -/
inductive UnknownPolicy where
  | fault
  | skip
  deriving DecidableEq, Repr

/-- The two open parameters of the block, arguments of the model (R4, R39). The defaults are the spec's. -/
structure Params where
  /-- UNKNOWN_POLICY, spec default `Fault`. -/
  unknownPolicy : UnknownPolicy := .fault
  /-- ADD_IMM_SETS_VF, spec default `false`: whether 7XNN writes its carry to VF. -/
  addImmSetsVF : Bool := false
  deriving DecidableEq, Repr

/-- The byte that the `n`-th CXNN draws: any byte, under no law (spec/43_immediate.md R142; log entry 2). A free value:
it has no body, so no proof can know it. -/
opaque rndByte : Nat → Byte

end Sys2Proof.Config
end

