-- ==== Sys2Proof/Syntax.lean ====
section
/-! DEFINITION. The instructions: one constructor per row of spec/opcode_table.json (spec/30_encoding.md R78). -/

namespace Sys2Proof

/-- The 26 instructions. Each carries only its operands, at their widths (spec/30_encoding.md R83), so every term is
an instruction the block has; bits the decoder ignores are not recorded. `Unknown` is no instruction: see
`Operation` in Decode.lean. -/
inductive Instr where
  /-- 0zEE `RET` -/
  | ret
  /-- 1NNN `JP addr` -/
  | jp (nnn : Addr)
  /-- 2NNN `CALL addr` -/
  | call (nnn : Addr)
  /-- 3XNN `SE Vx, byte` -/
  | seByte (x : RegIdx) (nn : Byte)
  /-- 4XNN `SNE Vx, byte` -/
  | sneByte (x : RegIdx) (nn : Byte)
  /-- 5XY0 `SE Vx, Vy` -/
  | seReg (x y : RegIdx)
  /-- 6XNN `LD Vx, byte` -/
  | ldByte (x : RegIdx) (nn : Byte)
  /-- 7XNN `ADD Vx, byte` -/
  | addByte (x : RegIdx) (nn : Byte)
  /-- 8XY0 `LD Vx, Vy` -/
  | ldReg (x y : RegIdx)
  /-- 8XY1 `OR Vx, Vy` -/
  | or (x y : RegIdx)
  /-- 8XY2 `AND Vx, Vy` -/
  | and (x y : RegIdx)
  /-- 8XY3 `XOR Vx, Vy` -/
  | xor (x y : RegIdx)
  /-- 8XY4 `ADD Vx, Vy` -/
  | addReg (x y : RegIdx)
  /-- 8XY5 `SUB Vx, Vy` -/
  | sub (x y : RegIdx)
  /-- 8XY6 `SHR Vx, Vy` -/
  | shr (x y : RegIdx)
  /-- 8XY7 `SUBN Vx, Vy` -/
  | subn (x y : RegIdx)
  /-- 8XYE `SHL Vx, Vy` -/
  | shl (x y : RegIdx)
  /-- 9XY0 `SNE Vx, Vy` -/
  | sneReg (x y : RegIdx)
  /-- BNNN `JP V0, addr` -/
  | jpV0 (nnn : Addr)
  /-- CXNN `RND Vx, byte` -/
  | rnd (x : RegIdx) (nn : Byte)
  /-- EX9E `SKP Vx` -/
  | skp (x : RegIdx)
  /-- EXA1 `SKNP Vx` -/
  | sknp (x : RegIdx)
  /-- FX07 `LD Vx, DT` -/
  | ldVxDt (x : RegIdx)
  /-- FX0A `LD Vx, K` -/
  | ldVxK (x : RegIdx)
  /-- FX15 `LD DT, Vx` -/
  | ldDtVx (x : RegIdx)
  /-- FX18 `LD ST, Vx` -/
  | ldStVx (x : RegIdx)
  deriving DecidableEq, Repr

end Sys2Proof
end

