-- ==== Sys2Proof/WellFormed.lean ====
section
/-! DEFINITION. Well-formedness. An `Instr` has its operand widths in its types; what can be ill-formed is what is
written with plain numbers: an assembler line (spec/30_encoding.md R84) and an image to load (R243). -/

namespace Sys2Proof

/-- The mnemonics of the syntax column of R78 (spec/30_encoding.md R84). -/
inductive Mnem where
  | ret | jp | call | se | sne | ld | add | or | and | xor | sub | shr | subn | shl | rnd | skp | sknp
  deriving DecidableEq, Repr

/-- An operand as written: a register `Vn`, a literal, or one of the keywords `DT`, `ST`, `K` (R84). -/
inductive AsmOperand where
  | v (n : Nat)
  | lit (n : Nat)
  | dt
  | st
  | k
  deriving DecidableEq, Repr

/-- One assembler line: a mnemonic and its operands, not yet checked (R84). -/
structure AsmLine where
  mnem : Mnem
  ops : List AsmOperand
  deriving DecidableEq, Repr

/-- A register operand is V0 to VF (R84). -/
def regOk (n : Nat) : Bool := decide (n < 16)

/-- `byte` is an 8-bit literal, 0x00 to 0xFF (R84). -/
def byteOk (n : Nat) : Bool := decide (n < 256)

/-- `addr` is a 12-bit literal, 0x000 to 0xFFF (R84). -/
def addrOk (n : Nat) : Bool := decide (n < 4096)

/-- The line has an operand shape the mnemonic has in R78, and every operand is in range. Repeated mnemonics are told
apart by their operand shapes (R84). -/
def AsmLine.wellFormed : AsmLine → Bool
  | ⟨.ret, []⟩ => true
  | ⟨.jp, [.lit a]⟩ => addrOk a
  | ⟨.jp, [.v r, .lit a]⟩ => r == 0 && addrOk a
  | ⟨.call, [.lit a]⟩ => addrOk a
  | ⟨.se, [.v x, .lit n]⟩ => regOk x && byteOk n
  | ⟨.se, [.v x, .v y]⟩ => regOk x && regOk y
  | ⟨.sne, [.v x, .lit n]⟩ => regOk x && byteOk n
  | ⟨.sne, [.v x, .v y]⟩ => regOk x && regOk y
  | ⟨.ld, [.v x, .lit n]⟩ => regOk x && byteOk n
  | ⟨.ld, [.v x, .v y]⟩ => regOk x && regOk y
  | ⟨.ld, [.v x, .dt]⟩ => regOk x
  | ⟨.ld, [.v x, .k]⟩ => regOk x
  | ⟨.ld, [.dt, .v x]⟩ => regOk x
  | ⟨.ld, [.st, .v x]⟩ => regOk x
  | ⟨.add, [.v x, .lit n]⟩ => regOk x && byteOk n
  | ⟨.add, [.v x, .v y]⟩ => regOk x && regOk y
  | ⟨.or, [.v x, .v y]⟩ => regOk x && regOk y
  | ⟨.and, [.v x, .v y]⟩ => regOk x && regOk y
  | ⟨.xor, [.v x, .v y]⟩ => regOk x && regOk y
  | ⟨.sub, [.v x, .v y]⟩ => regOk x && regOk y
  | ⟨.shr, [.v x, .v y]⟩ => regOk x && regOk y
  | ⟨.subn, [.v x, .v y]⟩ => regOk x && regOk y
  | ⟨.shl, [.v x, .v y]⟩ => regOk x && regOk y
  | ⟨.rnd, [.v x, .lit n]⟩ => regOk x && byteOk n
  | ⟨.skp, [.v x]⟩ => regOk x
  | ⟨.sknp, [.v x]⟩ => regOk x
  | _ => false

/-- How an instruction is written (the syntax column of R78, R84). -/
def Instr.toAsm : Instr → AsmLine
  | .ret => ⟨.ret, []⟩
  | .jp nnn => ⟨.jp, [.lit nnn.toNat]⟩
  | .call nnn => ⟨.call, [.lit nnn.toNat]⟩
  | .seByte x nn => ⟨.se, [.v x.toNat, .lit nn.toNat]⟩
  | .sneByte x nn => ⟨.sne, [.v x.toNat, .lit nn.toNat]⟩
  | .seReg x y => ⟨.se, [.v x.toNat, .v y.toNat]⟩
  | .ldByte x nn => ⟨.ld, [.v x.toNat, .lit nn.toNat]⟩
  | .addByte x nn => ⟨.add, [.v x.toNat, .lit nn.toNat]⟩
  | .ldReg x y => ⟨.ld, [.v x.toNat, .v y.toNat]⟩
  | .or x y => ⟨.or, [.v x.toNat, .v y.toNat]⟩
  | .and x y => ⟨.and, [.v x.toNat, .v y.toNat]⟩
  | .xor x y => ⟨.xor, [.v x.toNat, .v y.toNat]⟩
  | .addReg x y => ⟨.add, [.v x.toNat, .v y.toNat]⟩
  | .sub x y => ⟨.sub, [.v x.toNat, .v y.toNat]⟩
  | .shr x y => ⟨.shr, [.v x.toNat, .v y.toNat]⟩
  | .subn x y => ⟨.subn, [.v x.toNat, .v y.toNat]⟩
  | .shl x y => ⟨.shl, [.v x.toNat, .v y.toNat]⟩
  | .sneReg x y => ⟨.sne, [.v x.toNat, .v y.toNat]⟩
  | .jpV0 nnn => ⟨.jp, [.v 0, .lit nnn.toNat]⟩
  | .rnd x nn => ⟨.rnd, [.v x.toNat, .lit nn.toNat]⟩
  | .skp x => ⟨.skp, [.v x.toNat]⟩
  | .sknp x => ⟨.sknp, [.v x.toNat]⟩
  | .ldVxDt x => ⟨.ld, [.v x.toNat, .dt]⟩
  | .ldVxK x => ⟨.ld, [.v x.toNat, .k]⟩
  | .ldDtVx x => ⟨.ld, [.dt, .v x.toNat]⟩
  | .ldStVx x => ⟨.ld, [.st, .v x.toNat]⟩

/-- An instruction is well-formed when its line is: its operands are in the ranges of R84. The operand types make
this hold of every term (`Sys2Proof.Laws.instr_wellFormed`). -/
abbrev Instr.WellFormed (i : Instr) : Prop := i.toAsm.wellFormed = true

/-- An image fits in 0x200 to 0xFFF (spec/70_reset_and_hazards.md R243). -/
def imageOk (image : List Byte) : Bool := decide (image.length ≤ Config.maxImage)

end Sys2Proof
end

