-- ==== Sys2Proof/Decode.lean ====
section
/-! DEFINITION. The decoder (spec/30_encoding.md R71 to R83), total on every word, the opcode map as a table (R78), and
the encoder and assembler (R84). -/

namespace Sys2Proof

/-- What a word decodes to: one of the 26 instructions, or the catch-all `Unknown`, which is the name every other word
is rejected by (R76, R80). -/
inductive Operation where
  | instr (i : Instr)
  | unknown
  deriving DecidableEq, Repr

/-! ### Fields (R71) -/

/-- The family, `w[15:12]`. -/
def fieldF (w : Word) : BitVec 4 := w.extractLsb' 12 4
/-- `X = w[11:8]`: mask 0x0F00, shift right 8. -/
def fieldX (w : Word) : RegIdx := w.extractLsb' 8 4
/-- `Y = w[7:4]`: mask 0x00F0, shift right 4. -/
def fieldY (w : Word) : RegIdx := w.extractLsb' 4 4
/-- `N = w[3:0]`, the low nibble. -/
def fieldN (w : Word) : BitVec 4 := w.extractLsb' 0 4
/-- `NN = w[7:0]`: mask 0x00FF. -/
def fieldNN (w : Word) : Byte := w.extractLsb' 0 8
/-- `NNN = w[11:0]`: mask 0x0FFF. -/
def fieldNNN (w : Word) : Addr := w.extractLsb' 0 12

/-! ### The decoder (R77) -/

/-- Family 0x8 by its low nibble (R77). -/
def decodeAlu (w : Word) : Operation :=
  match fieldN w with
  | 0x0#4 => .instr (.ldReg (fieldX w) (fieldY w))
  | 0x1#4 => .instr (.or (fieldX w) (fieldY w))
  | 0x2#4 => .instr (.and (fieldX w) (fieldY w))
  | 0x3#4 => .instr (.xor (fieldX w) (fieldY w))
  | 0x4#4 => .instr (.addReg (fieldX w) (fieldY w))
  | 0x5#4 => .instr (.sub (fieldX w) (fieldY w))
  | 0x6#4 => .instr (.shr (fieldX w) (fieldY w))
  | 0x7#4 => .instr (.subn (fieldX w) (fieldY w))
  | 0xE#4 => .instr (.shl (fieldX w) (fieldY w))
  | _ => .unknown

/-- Family 0xE by its low byte (R77). -/
def decodeKey (w : Word) : Operation :=
  match fieldNN w with
  | 0x9E#8 => .instr (.skp (fieldX w))
  | 0xA1#8 => .instr (.sknp (fieldX w))
  | _ => .unknown

/-- Family 0xF by its low byte (R77). -/
def decodeMisc (w : Word) : Operation :=
  match fieldNN w with
  | 0x07#8 => .instr (.ldVxDt (fieldX w))
  | 0x0A#8 => .instr (.ldVxK (fieldX w))
  | 0x15#8 => .instr (.ldDtVx (fieldX w))
  | 0x18#8 => .instr (.ldStVx (fieldX w))
  | _ => .unknown

/-- The decode function of R77: the family by the top nibble, then exactly the conditions each row states. -/
def decode (w : Word) : Operation :=
  match fieldF w with
  | 0x0#4 => if fieldNN w = 0xEE#8 then .instr .ret else .unknown
  | 0x1#4 => .instr (.jp (fieldNNN w))
  | 0x2#4 => .instr (.call (fieldNNN w))
  | 0x3#4 => .instr (.seByte (fieldX w) (fieldNN w))
  | 0x4#4 => .instr (.sneByte (fieldX w) (fieldNN w))
  | 0x5#4 => if fieldN w = 0x0#4 then .instr (.seReg (fieldX w) (fieldY w)) else .unknown
  | 0x6#4 => .instr (.ldByte (fieldX w) (fieldNN w))
  | 0x7#4 => .instr (.addByte (fieldX w) (fieldNN w))
  | 0x8#4 => decodeAlu w
  | 0x9#4 => if fieldN w = 0x0#4 then .instr (.sneReg (fieldX w) (fieldY w)) else .unknown
  | 0xB#4 => .instr (.jpV0 (fieldNNN w))
  | 0xC#4 => .instr (.rnd (fieldX w) (fieldNN w))
  | 0xE#4 => decodeKey w
  | 0xF#4 => decodeMisc w
  | _ => .unknown

/-- A word from its two bytes in memory order: the byte at the lower address is bits 15:8
(spec/20_memory.md R53). -/
def wordOfBytes (hi lo : Byte) : Word := hi ++ lo

/-- The two bytes of a word as memory holds them, lowest address first (spec/20_memory.md R53). -/
def bytesOfWord (w : Word) : Byte × Byte := (w.extractLsb' 8 8, w.extractLsb' 0 8)

/-- Decode the instruction at the head of a byte list and return the rest; `none` where no whole word stands
(R70: every instruction is two bytes). -/
def decodeBytes : List Byte → Option (Operation × List Byte)
  | hi :: lo :: rest => some (decode (wordOfBytes hi lo), rest)
  | _ => none

/-- The word that a table row's number stands for: its low `nbits` bits, every bit above them 0. -/
def tableWord (nbits w : Nat) : Word := BitVec.ofNat 16 (w % 2 ^ nbits)

/-- The instruction the decoder reads from the bytes of a word numbered as spec/opcode_table.json numbers it. -/
def decodeTableWord (nbits w : Nat) : Option Instr :=
  let b := bytesOfWord (tableWord nbits w)
  match decodeBytes [b.1, b.2] with
  | some (.instr i, _) => some i
  | _ => none

/-! ### The opcode map as a table (R78) -/

/-- One row of R78: a word selects it exactly when `w & mask == value`. -/
structure OpcodeRow where
  mask : Word
  value : Word
  deriving DecidableEq, Repr

/-- The word selects the row. -/
abbrev OpcodeRow.Selects (r : OpcodeRow) (w : Word) : Prop := w &&& r.mask = r.value

/-- The 26 rows of R78, in its order. -/
def opcodeMap : List OpcodeRow :=
  [⟨0xF0FF, 0x00EE⟩, ⟨0xF000, 0x1000⟩, ⟨0xF000, 0x2000⟩, ⟨0xF000, 0x3000⟩, ⟨0xF000, 0x4000⟩,
   ⟨0xF00F, 0x5000⟩, ⟨0xF000, 0x6000⟩, ⟨0xF000, 0x7000⟩]
  ++ [⟨0xF00F, 0x8000⟩, ⟨0xF00F, 0x8001⟩, ⟨0xF00F, 0x8002⟩, ⟨0xF00F, 0x8003⟩, ⟨0xF00F, 0x8004⟩,
   ⟨0xF00F, 0x8005⟩, ⟨0xF00F, 0x8006⟩, ⟨0xF00F, 0x8007⟩, ⟨0xF00F, 0x800E⟩]
  ++ [⟨0xF00F, 0x9000⟩, ⟨0xF000, 0xB000⟩, ⟨0xF000, 0xC000⟩, ⟨0xF0FF, 0xE09E⟩, ⟨0xF0FF, 0xE0A1⟩,
   ⟨0xF0FF, 0xF007⟩, ⟨0xF0FF, 0xF00A⟩, ⟨0xF0FF, 0xF015⟩, ⟨0xF0FF, 0xF018⟩]

/-- The row of R78 an instruction belongs to. -/
def Instr.row : Instr → OpcodeRow
  | .ret => ⟨0xF0FF, 0x00EE⟩
  | .jp _ => ⟨0xF000, 0x1000⟩
  | .call _ => ⟨0xF000, 0x2000⟩
  | .seByte _ _ => ⟨0xF000, 0x3000⟩
  | .sneByte _ _ => ⟨0xF000, 0x4000⟩
  | .seReg _ _ => ⟨0xF00F, 0x5000⟩
  | .ldByte _ _ => ⟨0xF000, 0x6000⟩
  | .addByte _ _ => ⟨0xF000, 0x7000⟩
  | .ldReg _ _ => ⟨0xF00F, 0x8000⟩
  | .or _ _ => ⟨0xF00F, 0x8001⟩
  | .and _ _ => ⟨0xF00F, 0x8002⟩
  | .xor _ _ => ⟨0xF00F, 0x8003⟩
  | .addReg _ _ => ⟨0xF00F, 0x8004⟩
  | .sub _ _ => ⟨0xF00F, 0x8005⟩
  | .shr _ _ => ⟨0xF00F, 0x8006⟩
  | .subn _ _ => ⟨0xF00F, 0x8007⟩
  | .shl _ _ => ⟨0xF00F, 0x800E⟩
  | .sneReg _ _ => ⟨0xF00F, 0x9000⟩
  | .jpV0 _ => ⟨0xF000, 0xB000⟩
  | .rnd _ _ => ⟨0xF000, 0xC000⟩
  | .skp _ => ⟨0xF0FF, 0xE09E⟩
  | .sknp _ => ⟨0xF0FF, 0xE0A1⟩
  | .ldVxDt _ => ⟨0xF0FF, 0xF007⟩
  | .ldVxK _ => ⟨0xF0FF, 0xF00A⟩
  | .ldDtVx _ => ⟨0xF0FF, 0xF015⟩
  | .ldStVx _ => ⟨0xF0FF, 0xF018⟩

/-! ### The encoder and the assembler (R72, R84) -/

/-- Shape `A`: family and NNN (R72). -/
def encA (f : BitVec 4) (nnn : Addr) : Word := f ++ nnn
/-- Shape `XI`: family, X, NN; also shape `XF`, whose low byte is the function (R72). -/
def encXI (f : BitVec 4) (x : RegIdx) (nn : Byte) : Word := (f ++ x) ++ nn
/-- Shape `XY`: family, X, Y, function nibble (R72). -/
def encXY (f : BitVec 4) (x y : RegIdx) (n : BitVec 4) : Word := ((f ++ x) ++ y) ++ n

/-- The word an assembler writes for an instruction (R84): bits 11:8 of RET are zero. -/
def encode : Instr → Word
  | .ret => 0x00EE
  | .jp nnn => encA 0x1 nnn
  | .call nnn => encA 0x2 nnn
  | .seByte x nn => encXI 0x3 x nn
  | .sneByte x nn => encXI 0x4 x nn
  | .seReg x y => encXY 0x5 x y 0x0
  | .ldByte x nn => encXI 0x6 x nn
  | .addByte x nn => encXI 0x7 x nn
  | .ldReg x y => encXY 0x8 x y 0x0
  | .or x y => encXY 0x8 x y 0x1
  | .and x y => encXY 0x8 x y 0x2
  | .xor x y => encXY 0x8 x y 0x3
  | .addReg x y => encXY 0x8 x y 0x4
  | .sub x y => encXY 0x8 x y 0x5
  | .shr x y => encXY 0x8 x y 0x6
  | .subn x y => encXY 0x8 x y 0x7
  | .shl x y => encXY 0x8 x y 0xE
  | .sneReg x y => encXY 0x9 x y 0x0
  | .jpV0 nnn => encA 0xB nnn
  | .rnd x nn => encXI 0xC x nn
  | .skp x => encXI 0xE x 0x9E
  | .sknp x => encXI 0xE x 0xA1
  | .ldVxDt x => encXI 0xF x 0x07
  | .ldVxK x => encXI 0xF x 0x0A
  | .ldDtVx x => encXI 0xF x 0x15
  | .ldStVx x => encXI 0xF x 0x18

/-- The instruction a line's shape names, its numbers taken at the field widths. -/
def shapeInstr : AsmLine → Option Instr
  | ⟨.ret, []⟩ => some .ret
  | ⟨.jp, [.lit a]⟩ => some (.jp (.ofNat 12 a))
  | ⟨.jp, [.v _, .lit a]⟩ => some (.jpV0 (.ofNat 12 a))
  | ⟨.call, [.lit a]⟩ => some (.call (.ofNat 12 a))
  | ⟨.se, [.v x, .lit n]⟩ => some (.seByte (.ofNat 4 x) (.ofNat 8 n))
  | ⟨.se, [.v x, .v y]⟩ => some (.seReg (.ofNat 4 x) (.ofNat 4 y))
  | ⟨.sne, [.v x, .lit n]⟩ => some (.sneByte (.ofNat 4 x) (.ofNat 8 n))
  | ⟨.sne, [.v x, .v y]⟩ => some (.sneReg (.ofNat 4 x) (.ofNat 4 y))
  | ⟨.ld, [.v x, .lit n]⟩ => some (.ldByte (.ofNat 4 x) (.ofNat 8 n))
  | ⟨.ld, [.v x, .v y]⟩ => some (.ldReg (.ofNat 4 x) (.ofNat 4 y))
  | ⟨.ld, [.v x, .dt]⟩ => some (.ldVxDt (.ofNat 4 x))
  | ⟨.ld, [.v x, .k]⟩ => some (.ldVxK (.ofNat 4 x))
  | ⟨.ld, [.dt, .v x]⟩ => some (.ldDtVx (.ofNat 4 x))
  | ⟨.ld, [.st, .v x]⟩ => some (.ldStVx (.ofNat 4 x))
  | ⟨.add, [.v x, .lit n]⟩ => some (.addByte (.ofNat 4 x) (.ofNat 8 n))
  | ⟨.add, [.v x, .v y]⟩ => some (.addReg (.ofNat 4 x) (.ofNat 4 y))
  | ⟨.or, [.v x, .v y]⟩ => some (.or (.ofNat 4 x) (.ofNat 4 y))
  | ⟨.and, [.v x, .v y]⟩ => some (.and (.ofNat 4 x) (.ofNat 4 y))
  | ⟨.xor, [.v x, .v y]⟩ => some (.xor (.ofNat 4 x) (.ofNat 4 y))
  | ⟨.sub, [.v x, .v y]⟩ => some (.sub (.ofNat 4 x) (.ofNat 4 y))
  | ⟨.shr, [.v x, .v y]⟩ => some (.shr (.ofNat 4 x) (.ofNat 4 y))
  | ⟨.subn, [.v x, .v y]⟩ => some (.subn (.ofNat 4 x) (.ofNat 4 y))
  | ⟨.shl, [.v x, .v y]⟩ => some (.shl (.ofNat 4 x) (.ofNat 4 y))
  | ⟨.rnd, [.v x, .lit n]⟩ => some (.rnd (.ofNat 4 x) (.ofNat 8 n))
  | ⟨.skp, [.v x]⟩ => some (.skp (.ofNat 4 x))
  | ⟨.sknp, [.v x]⟩ => some (.sknp (.ofNat 4 x))
  | _ => none

/-- The assembler (R84): an ill-formed line is refused, a well-formed one is its instruction. -/
def assemble (l : AsmLine) : Option Instr := if l.wellFormed then shapeInstr l else none

end Sys2Proof
end

