-- ==== Sys2Proof/Machine/State.lean ====
section
/-! DEFINITION. The machine state as plain data (spec/10_state.md), the ways a step can stop, and the state after
reset. -/

namespace Sys2Proof.Machine

open Sys2Proof

/-- The five fault causes (spec/60_exceptions.md R200). -/
inductive Cause where
  | unrecognizedInstruction
  | stackOverflow
  | stackUnderflow
  | fetchOutOfRange
  | keyIndexOutOfRange
  deriving DecidableEq, Repr

/-- A fault record, also the payload of a report (spec/10_state.md R37). -/
structure FaultRecord where
  cause : Cause
  /-- The address the step fetched from. -/
  addr : Word
  /-- The instruction word; 0 for a fetch fault. -/
  word : Word
  deriving DecidableEq, Repr

/-- The sequencer status (spec/10_state.md R36). -/
inductive Status where
  /-- The next step fetches at `pc`. -/
  | run
  /-- An FX0A with target register `x` has started and its commit is pending. -/
  | waitKey (x : RegIdx)
  /-- A fault has ended the run. -/
  | faulted (r : FaultRecord)
  deriving DecidableEq, Repr

/-- The latch `last_key_pressed` (spec/10_state.md R32). -/
structure LastKey where
  index : KeyIdx
  whileHalted : Bool
  deriving DecidableEq, Repr

/-- What the sequencer keeps of the instruction in execution for its fault record or report: its address `a` and its
word `w` (spec/40_sequencer.md R103; log entry 4). -/
structure Latch where
  addr : Word
  word : Word
  deriving DecidableEq, Repr

/-- Memory: the listed bytes by address, addresses rising; an unlisted address reads as `Memory.unlisted`
(spec/10_state.md R35). -/
abbrev Memory := List Host.Cell

/-- All the state the spec gives the machine (spec/10_state.md R20 to R38), and the model's own fields, last. -/
structure State where
  /-- V0 to VF (R20); register 15 is also the flag (R21). -/
  regs : Vector Byte 16
  /-- The program counter (R24). -/
  pc : Word
  /-- `I`, which no instruction touches (R26). -/
  index : Word
  /-- The return-address slots (R27). -/
  stack : Vector Word Config.stackDepth
  /-- The next free slot, 0 to 48 (R28). -/
  sp : Fin (Config.stackDepth + 1)
  /-- The delay timer (R30). -/
  dt : Byte
  /-- The sound timer (R31). -/
  st : Byte
  /-- The key bitmap (R34). -/
  keys : Vector Bool 16
  /-- `last_key_pressed` (R32). -/
  lastKey : LastKey
  /-- The run/halt flag (R33). -/
  stopped : Bool
  /-- The 4096-byte memory (R35). -/
  mem : Memory
  /-- The sequencer status (R36). -/
  status : Status
  /-- The instruction in execution (spec/40_sequencer.md R103). -/
  latch : Latch
  /-- The model's field: the two parameters of the block (spec/00_scope.md R4), which no transition changes
  (log entry 1). -/
  params : Config.Params
  /-- The model's field: how many bytes CXNN has drawn (log entry 2). -/
  draws : Nat
  /-- The model's field: the run's history of `report` events, oldest first (spec/60_exceptions.md R205; log entry 3). -/
  reports : List FaultRecord
  /-- The model's field: an instruction has been fetched since reset (log entry 5). -/
  started : Bool
  deriving DecidableEq, Repr

/-- Why the core has no enabled step although no fault ended the run (spec/40_sequencer.md R107). -/
inductive Hold where
  /-- `stopped` is true; the environment's `set_stopped(false)` lifts it. -/
  | stopped
  /-- A wait with target register `x`, and no key is pressed; `set_key(k, true)` lifts it. -/
  | noKey (x : RegIdx)
  deriving DecidableEq, Repr

/-- The ways a step stops for good. -/
inductive Fault where
  /-- Raised by `step` in a state whose status is already `Faulted(r)`: the run has ended and only `reset` leaves it
  (spec/60_exceptions.md R202). Safe: the block has no step there either. -/
  | terminated (r : FaultRecord)
  deriving DecidableEq, Repr

/-- The ways a transition is refused. -/
inductive Refusal where
  /-- Raised by `exec` for an instruction without a meaning. Safe. No arm raises it. -/
  | notModelled (mnemonic : String)
  /-- Raised by `step` where the core has no enabled step for now (spec/40_sequencer.md R107): the step is not taken
  and the state stands. Safe: the block does not step there either. -/
  | held (h : Hold)
  /-- Raised by the environment's `load` for an image longer than 3584 bytes (spec/70_reset_and_hazards.md R243).
  Safe: no machine is built. -/
  | imageTooLong
  /-- Raised by the environment's `load` after the first step (spec/70_reset_and_hazards.md R243). Safe: the spec does
  not allow it. -/
  | loadAfterStart
  deriving DecidableEq, Repr

/-- The machine right after reset under parameters `p` (spec/70_reset_and_hazards.md R240); `n` is where the free bytes
of CXNN go on (log entry 2). -/
def State.fresh (p : Config.Params) (n : Nat) : State where
  regs := Vector.replicate 16 0
  pc := 0x200
  index := 0
  stack := Vector.replicate Config.stackDepth 0
  sp := 0
  dt := 0
  st := 0
  keys := Vector.replicate 16 false
  lastKey := ⟨0, false⟩
  stopped := false
  mem := []
  status := .run
  latch := ⟨0, 0⟩
  params := p
  draws := n
  reports := []
  started := false

/-- The machine right after reset, under the spec's default parameters (R240; spec/00_scope.md R4). -/
def State.reset : State := State.fresh {} 0

end Sys2Proof.Machine
end

