-- ==== Sys2Proof/Machine/Ops.lean ====
section
/-! DEFINITION. The named operations over registers, keys, the call stack and memory (spec/00_scope.md R9 to R11), and
taking a fault (spec/60_exceptions.md R201). The block has no return from a fault (R207). -/

namespace Sys2Proof.Machine

open Sys2Proof

/-! ### Registers and keys (R9) -/

/-- `x[r]`: read a general register. -/
def State.v (s : State) (r : RegIdx) : Byte := s.regs[r.toNat]'r.isLt

/-- `x[r] <- b`: write a general register. -/
def State.setV (s : State) (r : RegIdx) (b : Byte) : State :=
  { s with regs := s.regs.set r.toNat b r.isLt }

/-- `keys[k]`. -/
def State.key (s : State) (k : KeyIdx) : Bool := s.keys[k.toNat]'k.isLt

/-- `keys[k] <- p`. -/
def State.setKey (s : State) (k : KeyIdx) (p : Bool) : State :=
  { s with keys := s.keys.set k.toNat p k.isLt }

/-- The index of the first `true`, counting from `n`. -/
def firstTrue : List Bool → Nat → Option Nat
  | [], _ => none
  | b :: bs, n => if b then some n else firstTrue bs (n + 1)

/-- `pick_key`: the lowest pressed index, the one decision point of the key wait (spec/45_keys_timers.md R176). -/
def State.pickKey (s : State) : Option KeyIdx := (firstTrue s.keys.toList 0).map (BitVec.ofNat 4)

/-! ### The program counter and the call stack -/

/-- `pc <- target`. -/
def State.jump (s : State) (target : Word) : State := { s with pc := target }

/-- `skip`: one extra advance of 2, modulo 2^16 (R11; spec/10_state.md R24). -/
def State.skip (s : State) : State := { s with pc := s.pc + 2 }

/-- `skip` where the condition holds. -/
def State.skipIf (s : State) (c : Bool) : State := if c then s.skip else s

/-- Push a return address where a slot is free: it goes to `stack[sp]`, and `sp` rises by one (spec/41_control_flow.md
R122). `none` where `sp == 48`. -/
def State.push (s : State) (a : Word) : Option State :=
  if h : s.sp.val < Config.stackDepth then
    some { s with stack := s.stack.set s.sp.val a h, sp := ⟨s.sp.val + 1, Nat.succ_lt_succ h⟩ }
  else none

/-- Pop: `sp` falls by one and the address in `stack[sp]` is given; the slot keeps it (spec/41_control_flow.md R120;
spec/10_state.md R29). `none` where `sp == 0`. -/
def State.pop (s : State) : Option (Word × State) :=
  match s.sp with
  | ⟨0, _⟩ => none
  | ⟨n + 1, h⟩ =>
    some (s.stack[n]'(Nat.lt_of_succ_lt_succ h), { s with sp := ⟨n, Nat.lt_of_succ_lt h⟩ })

/-! ### Taking a fault -/

/-- `raise Fault(cause, {addr, word})`: only `status` changes (spec/60_exceptions.md R201). -/
def State.raiseAt (s : State) (c : Cause) (addr word : Word) : State :=
  { s with status := .faulted ⟨c, addr, word⟩ }

/-- `raise Fault(cause, {addr: a, word: w})` of the instruction in execution (spec/60_exceptions.md R201;
spec/40_sequencer.md R103). -/
def State.raise (s : State) (c : Cause) : State := s.raiseAt c s.latch.addr s.latch.word

/-- The spec's numeric code of a cause (spec/60_exceptions.md R200). -/
def Cause.code : Cause → Nat
  | .unrecognizedInstruction => 1
  | .stackOverflow => 2
  | .stackUnderflow => 3
  | .fetchOutOfRange => 4
  | .keyIndexOutOfRange => 5

/-! ### Memory -/

/-- What an unlisted address reads as: the spec's reset contents (spec/10_state.md R35). -/
def Memory.unlisted : Byte := 0

/-- The byte listed at `a`, or the unlisted value. -/
def Memory.lookup : Memory → Nat → Byte
  | [], _ => Memory.unlisted
  | c :: m, a => if c.1 = a then c.2 else Memory.lookup m a

/-- `MemRead(a, 1)`: `none` outside 0x000 to 0xFFF, where no byte exists (spec/00_scope.md R10; spec/20_memory.md
R50). -/
def Memory.read (m : Memory) (a : Nat) : Option Byte :=
  if a < Config.memSize then some (m.lookup a) else none

/-- `MemRead(a, n)` for any `n`: the bytes at `a` to `a + n - 1`, lowest first, defined only where all of them exist
(spec/00_scope.md R10). -/
def Memory.readBytes (m : Memory) (a : Nat) : Nat → Option (List Byte)
  | 0 => some []
  | n + 1 =>
    match m.read a, m.readBytes (a + 1) n with
    | some b, some bs => some (b :: bs)
    | _, _ => none

/-- A listing of one byte, or of none where it is the unlisted value. -/
def Memory.cell (a : Nat) (b : Byte) : Memory := if b = Memory.unlisted then [] else [(a, b)]

/-- Store the byte `b` at address `a`, keeping the canonical form. Only `load` uses it (spec/20_memory.md R56). -/
def Memory.write : Memory → Nat → Byte → Memory
  | [], a, b => Memory.cell a b
  | c :: m, a, b =>
    if a < c.1 then Memory.cell a b ++ c :: m
    else if a = c.1 then Memory.cell a b ++ m
    else c :: Memory.write m a b

/-- Store consecutive bytes from `a` on. -/
def Memory.writeAll : Memory → Nat → List Byte → Memory
  | m, _, [] => m
  | m, a, b :: bs => Memory.writeAll (m.write a b) (a + 1) bs

/-- The canonical form: addresses strictly rising and inside the space, no entry equal to the unlisted value. -/
abbrev Memory.Wf (m : Memory) : Prop :=
  m.Pairwise (fun c d => c.1 < d.1) ∧ ∀ c ∈ m, c.2 ≠ Memory.unlisted ∧ c.1 < Config.memSize

/-- The canonical form as a Boolean. -/
def Memory.wf (m : Memory) : Bool := decide m.Wf

end Sys2Proof.Machine
end

