-- ==== Sys2Proof/Machine/Operands.lean ====
section
/-! DEFINITION. The operand forms (spec/30_encoding.md R73 to R75). -/

namespace Sys2Proof.Machine

open Sys2Proof

/-- The flag register VF (spec/10_state.md R21). -/
def vf : RegIdx := 0xF

/-- The offset register of BNNN, whatever bits 11:8 hold (spec/41_control_flow.md R123). -/
def v0 : RegIdx := 0x0

/-- `zext_16(NNN)`: an address as a program-counter value, neither shifted nor scaled (R75). -/
def zextAddr (nnn : Addr) : Word := nnn.setWidth 16

/-- `zext_16` of a register's byte. -/
def zextByte (b : Byte) : Word := b.setWidth 16

/-- The key that a register's value names: `none` above 0x0F (spec/45_keys_timers.md R170, R171). -/
def keyOfByte (b : Byte) : Option KeyIdx := if b.toNat ≤ 0xF then some (b.setWidth 4) else none

/-- A key index as a register's byte (spec/45_keys_timers.md R173). -/
def byteOfKey (k : KeyIdx) : Byte := k.setWidth 8

end Sys2Proof.Machine
end

