-- ==== Sys2Proof/Machine/Flags.lean ====
section
/-! DEFINITION. Results and flags of the byte arithmetic: exact first, narrowed at the end (spec/00_scope.md R8;
spec/44_alu.md R160). -/

namespace Sys2Proof.Machine

open Sys2Proof

/-- `bool(c)` as the byte a flag write stores (spec/00_scope.md R8; spec/10_state.md R21). -/
def flagByte (c : Bool) : Byte := if c then 1 else 0

/-- `trunc_8(a + b)` (spec/44_alu.md R155). -/
def sum8 (a b : Byte) : Byte := BitVec.ofNat 8 (a.toNat + b.toNat)

/-- Carry: `a + b >= 256` (R155). -/
def carry (a b : Byte) : Bool := decide (256 ≤ a.toNat + b.toNat)

/-- `trunc_8(m - n + 256)` (R156). -/
def diff8 (m n : Byte) : Byte := BitVec.ofNat 8 (m.toNat + 256 - n.toNat)

/-- Borrow: `m < n`; 1 means a borrow occurred (R156). -/
def borrow (m n : Byte) : Bool := decide (m.toNat < n.toNat)

/-- `v >> 1` (R157). -/
def shr8 (v : Byte) : Byte := BitVec.ofNat 8 (v.toNat / 2)

/-- The bit a right shift pushes out, `v[0]` (R157). -/
def lowBit (v : Byte) : Bool := v.getLsbD 0

/-- `trunc_8(v << 1)` (R159). -/
def shl8 (v : Byte) : Byte := BitVec.ofNat 8 (v.toNat * 2)

/-- The bit a left shift pushes out, `v[7]` (R159). -/
def highBit (v : Byte) : Bool := v.getLsbD 7

/-- Write a result to VX and then the flag to VF, last, so that with X = 15 the flag stays (R150). -/
def writeFlagged (s : State) (x : RegIdx) (result : Byte) (flag : Bool) : State :=
  (s.setV x result).setV vf (flagByte flag)

end Sys2Proof.Machine
end

