-- ==== Sys2Proof/Machine/Alu.lean ====
section
/-! DEFINITION. Register-register operations (spec/44_alu.md). Operands are read from `s`, before any write (R150). -/

namespace Sys2Proof.Machine

open Sys2Proof

/-- `LD Vx, Vy` (R151). -/
def execLdReg (x y : RegIdx) (s : State) : Host.Outcome State Fault Refusal :=
  .next (s.setV x (s.v y))

/-- `OR Vx, Vy` (R152). -/
def execOr (x y : RegIdx) (s : State) : Host.Outcome State Fault Refusal :=
  .next (s.setV x (s.v x ||| s.v y))

/-- `AND Vx, Vy` (R153). -/
def execAnd (x y : RegIdx) (s : State) : Host.Outcome State Fault Refusal :=
  .next (s.setV x (s.v x &&& s.v y))

/-- `XOR Vx, Vy` (R154). -/
def execXor (x y : RegIdx) (s : State) : Host.Outcome State Fault Refusal :=
  .next (s.setV x (s.v x ^^^ s.v y))

/-- `ADD Vx, Vy` (R155). -/
def execAddReg (x y : RegIdx) (s : State) : Host.Outcome State Fault Refusal :=
  .next (writeFlagged s x (sum8 (s.v x) (s.v y)) (carry (s.v x) (s.v y)))

/-- `SUB Vx, Vy` (R156). -/
def execSub (x y : RegIdx) (s : State) : Host.Outcome State Fault Refusal :=
  .next (writeFlagged s x (diff8 (s.v x) (s.v y)) (borrow (s.v x) (s.v y)))

/-- `SHR Vx, Vy` (R157): the source is VY. -/
def execShr (x y : RegIdx) (s : State) : Host.Outcome State Fault Refusal :=
  .next (writeFlagged s x (shr8 (s.v y)) (lowBit (s.v y)))

/-- `SUBN Vx, Vy` (R158). -/
def execSubn (x y : RegIdx) (s : State) : Host.Outcome State Fault Refusal :=
  .next (writeFlagged s x (diff8 (s.v y) (s.v x)) (borrow (s.v y) (s.v x)))

/-- `SHL Vx, Vy` (R159): the source is VY. -/
def execShl (x y : RegIdx) (s : State) : Host.Outcome State Fault Refusal :=
  .next (writeFlagged s x (shl8 (s.v y)) (highBit (s.v y)))

end Sys2Proof.Machine
end

