-- ==== Sys2Proof/Machine/ControlFlow.lean ====
section
/-! DEFINITION. Control transfer (spec/41_control_flow.md): RET, JP, CALL, JP V0. Each runs with `pc = a + 2`, assigns
`pc` and adds nothing to it (spec/40_sequencer.md R105). -/

namespace Sys2Proof.Machine

open Sys2Proof

/-- `RET` (R120). -/
def execRet (s : State) : Host.Outcome State Fault Refusal :=
  match s.pop with
  | none => .next (s.raise .stackUnderflow)
  | some (target, s') => .next (s'.jump target)

/-- `JP addr` (R121). -/
def execJp (nnn : Addr) (s : State) : Host.Outcome State Fault Refusal :=
  .next (s.jump (zextAddr nnn))

/-- `CALL addr` (R122): the return address is `pc`, the instruction's address plus 2. -/
def execCall (nnn : Addr) (s : State) : Host.Outcome State Fault Refusal :=
  match s.push s.pc with
  | none => .next (s.raise .stackOverflow)
  | some s' => .next (s'.jump (zextAddr nnn))

/-- `JP V0, addr` (R123): the sum is not masked to 12 bits. -/
def execJpV0 (nnn : Addr) (s : State) : Host.Outcome State Fault Refusal :=
  .next (s.jump (zextAddr nnn + zextByte (s.v v0)))

end Sys2Proof.Machine
end

