-- ==== Sys2Proof/Machine/Immediate.lean ====
section
/-! DEFINITION. Immediate operations and the random draw (spec/43_immediate.md). -/

namespace Sys2Proof.Machine

open Sys2Proof

/-- `LD Vx, byte` (R140). -/
def execLdByte (x : RegIdx) (nn : Byte) (s : State) : Host.Outcome State Fault Refusal :=
  .next (s.setV x nn)

/-- `ADD Vx, byte` (R141): VF is written, last, only under ADD_IMM_SETS_VF (log entry 1). -/
def execAddByte (x : RegIdx) (nn : Byte) (s : State) : Host.Outcome State Fault Refusal :=
  .next (if s.params.addImmSetsVF then writeFlagged s x (sum8 (s.v x) nn) (carry (s.v x) nn)
    else s.setV x (sum8 (s.v x) nn))

/-- `draw_u8()`: the next free byte, and the state that has drawn it (spec/00_scope.md R11; log entry 2). -/
def draw (s : State) : Byte × State := (Config.rndByte s.draws, { s with draws := s.draws + 1 })

/-- `RND Vx, byte` (R142). -/
def execRnd (x : RegIdx) (nn : Byte) (s : State) : Host.Outcome State Fault Refusal :=
  .next ((draw s).2.setV x ((draw s).1 &&& nn))

end Sys2Proof.Machine
end

