-- ==== Sys2Proof/Machine/KeysTimers.lean ====
section
/-! DEFINITION. Key and timer instructions (spec/45_keys_timers.md). -/

namespace Sys2Proof.Machine

open Sys2Proof

/-- The key test of SKP and SKNP: a fault where VX names no key, else a skip where the key's state is `want`
(R170, R171). -/
def skipOnKey (s : State) (x : RegIdx) (want : Bool) : State :=
  match keyOfByte (s.v x) with
  | none => s.raise .keyIndexOutOfRange
  | some k => s.skipIf (s.key k == want)

/-- `SKP Vx` (R170). -/
def execSkp (x : RegIdx) (s : State) : Host.Outcome State Fault Refusal :=
  .next (skipOnKey s x true)

/-- `SKNP Vx` (R171). -/
def execSknp (x : RegIdx) (s : State) : Host.Outcome State Fault Refusal :=
  .next (skipOnKey s x false)

/-- `LD Vx, DT` (R172). -/
def execLdVxDt (x : RegIdx) (s : State) : Host.Outcome State Fault Refusal :=
  .next (s.setV x s.dt)

/-- `LD Vx, K` (R173): commit the lowest pressed key at once, or start the wait. -/
def execLdVxK (x : RegIdx) (s : State) : Host.Outcome State Fault Refusal :=
  match s.pickKey with
  | some k => .next (s.setV x (byteOfKey k))
  | none => .next { s with status := .waitKey x }

/-- `LD DT, Vx` (R174). -/
def execLdDtVx (x : RegIdx) (s : State) : Host.Outcome State Fault Refusal :=
  .next { s with dt := s.v x }

/-- `LD ST, Vx` (R175). -/
def execLdStVx (x : RegIdx) (s : State) : Host.Outcome State Fault Refusal :=
  .next { s with st := s.v x }

end Sys2Proof.Machine
end

