-- ==== Sys2Proof/Machine/Sequencer.lean ====
section
/-! DEFINITION. The phases of a step around the execute phase (spec/40_sequencer.md): whose turn it is, fetch, advance,
the completion of a key wait, and `Unknown`. -/

namespace Sys2Proof.Machine

open Sys2Proof

/-- The instruction word at address `a`, high byte first; `none` where one of its bytes does not exist
(spec/20_memory.md R53, R54). -/
def wordAt (m : Memory) (a : Nat) : Option Word :=
  match m.read a, m.read (a + 1) with
  | some hi, some lo => some (wordOfBytes hi lo)
  | _, _ => none

/-- The fetch phase at any `pc`, odd or even; `none` where `pc > 0xFFE` (spec/20_memory.md R54, R55). -/
def State.fetch (s : State) : Option Word :=
  if s.pc.toNat ≤ Config.lastFetch then wordAt s.mem s.pc.toNat else none

/-- A fetch out of range: only `status` changes and the record's word is 0 (R101). -/
def State.fetchFault (s : State) : State := s.raiseAt .fetchOutOfRange s.pc 0

/-- The advance phase of the fetched word `w`: `pc <- trunc_16(a + 2)`, and the sequencer keeps `a` and `w`
(R102, R103). -/
def State.advance (s : State) (w : Word) : State :=
  { s with pc := s.pc + 2, latch := ⟨s.pc, w⟩, started := true }

/-- What the core can do in a state (R100, R107). -/
inductive Turn where
  | fetch
  | complete (x : RegIdx) (k : KeyIdx)
  | hold (h : Hold)
  | ended (r : FaultRecord)
  deriving DecidableEq, Repr

/-- Whether a step is enabled, and which (R100, R107). -/
def State.turn (s : State) : Turn :=
  match s.status with
  | .faulted r => .ended r
  | .run => if s.stopped then .hold .stopped else .fetch
  | .waitKey x =>
    if s.stopped then .hold .stopped
    else match s.pickKey with
      | some k => .complete x k
      | none => .hold (.noKey x)

/-- The completion step of FX0A: commit key `k` to VX and run on; `pc` stays (spec/45_keys_timers.md R173). -/
def State.completeWait (s : State) (x : RegIdx) (k : KeyIdx) : State :=
  { s.setV x (byteOfKey k) with status := .run }

/-- Emit a report of the instruction in execution (spec/60_exceptions.md R205; log entry 3). -/
def State.report (s : State) (c : Cause) : State :=
  { s with reports := s.reports ++ [⟨c, s.latch.addr, s.latch.word⟩] }

/-- Executing `Unknown`, by the policy (spec/60_exceptions.md R204; log entry 1). -/
def execUnknown (s : State) : State :=
  match s.params.unknownPolicy with
  | .fault => s.raise .unrecognizedInstruction
  | .skip => s.report .unrecognizedInstruction

/-- Store the word `w` at `pc`, high byte first: the form memory has after a load that put it there. -/
def State.placeWord (s : State) (w : Word) : State :=
  { s with mem := s.mem.writeAll s.pc.toNat [(bytesOfWord w).1, (bytesOfWord w).2] }

end Sys2Proof.Machine
end

