-- ==== Sys2Proof/Machine/Step.lean ====
section
/-! DEFINITION. One step of the core (spec/40_sequencer.md R100). It answers a next state exactly where the core has an
enabled step (R107). -/

namespace Sys2Proof.Machine

open Sys2Proof

/-- Execute a decoded operation after the advance phase (R104). -/
def execute (op : Operation) (s : State) : Host.Outcome State Fault Refusal :=
  match op with
  | .instr i => exec i s
  | .unknown => .next (execUnknown s)

/-- The core's one transition (R100). -/
def step (s : State) : Host.Outcome State Fault Refusal :=
  match s.turn with
  | .ended r => .fault (.terminated r)
  | .hold h => .refused (.held h)
  | .complete x k => .next (s.completeWait x k)
  | .fetch =>
    match s.fetch with
    | none => .next s.fetchFault
    | some w => execute (decode w) (s.advance w)

/-- `s` with the instruction numbered `w` as spec/opcode_table.json numbers it stored at `pc`, where `step` fetches
next (log entry 6). -/
def State.withFetchWord (s : State) (nbits w : Nat) : State := s.placeWord (tableWord nbits w)

end Sys2Proof.Machine
end

