-- ==== Sys2Proof/Machine/Environment.lean ====
section
/-! DEFINITION. The environment (the spec's host): its atomic actions (spec/60_exceptions.md R215 to R220), and runs that
interleave them with core steps in one total order (spec/20_memory.md R59). -/

namespace Sys2Proof.Machine

open Sys2Proof

/-- The environment's actions (R220). Reading the state changes nothing and needs no action. -/
inductive EnvAction where
  | reset
  | load (image : List Byte)
  /-- `set_key`: the index type is 0..15, so no other index reaches the block (R217). -/
  | setKey (k : KeyIdx) (pressed : Bool)
  | recordLastKey (k : KeyIdx) (whileHalted : Bool)
  | timerTick
  | setStopped (b : Bool)
  deriving DecidableEq, Repr

/-- One count down, stopping at 0 (R215). -/
def countDown (t : Byte) : Byte := if 0 < t.toNat then t - 1 else t

/-- `timer_tick`: both timers, in every status (R215). -/
def State.timerTick (s : State) : State := { s with dt := countDown s.dt, st := countDown s.st }

/-- `sound_active = (ST != 0)` (R216). -/
def State.soundActive (s : State) : Bool := s.st != 0

/-- `reset`: the reset state under the same parameters, with CXNN's free bytes going on, at any time
(spec/70_reset_and_hazards.md R240). -/
def State.resetNow (s : State) : State := State.fresh s.params s.draws

/-- `load(image)`: allowed only before the first step and for an image that fits (spec/70_reset_and_hazards.md R243).
DESIGN CHOICE (log entry 14): it may be taken again before the first step, and then replaces the bytes of its own image
only, so a shorter second image leaves the first one's tail after it; the spec's boot order has one load (R51, R244) and
does not say. -/
def State.load (image : List Byte) (s : State) : Host.Outcome State Fault Refusal :=
  if s.started then .refused .loadAfterStart
  else if imageOk image then .next { s with mem := s.mem.writeAll Config.programStart image }
  else .refused .imageTooLong

/-- One action of the environment. -/
def act (a : EnvAction) (s : State) : Host.Outcome State Fault Refusal :=
  match a with
  | .reset => .next s.resetNow
  | .load image => s.load image
  | .setKey k p => .next (s.setKey k p)
  | .recordLastKey k h => .next { s with lastKey := ⟨k, h⟩ }
  | .timerTick => .next s.timerTick
  | .setStopped b => .next { s with stopped := b }

/-- One atomic event: a core step or an action of the environment (spec/20_memory.md R59). -/
inductive Event where
  | core
  | env (a : EnvAction)
  deriving DecidableEq, Repr

/-- The transition an event makes. -/
def transition (e : Event) (s : State) : Host.Outcome State Fault Refusal :=
  match e with
  | .core => step s
  | .env a => act a s

/-- A run over a list of events, in order; it stops at the first event that is not enabled. The order of the events is
the interleaving, and their number and place the TICK_SCHEDULE (spec/00_scope.md R4). -/
def runEvents : List Event → State → Host.Outcome State Fault Refusal
  | [], s => .next s
  | e :: es, s =>
    match transition e s with
    | .next s' => runEvents es s'
    | .fault r => .fault r
    | .refused r => .refused r

/-- The two construction paths (spec/70_reset_and_hazards.md R241): the fresh machine, then `load` of an image. -/
def boot (p : Config.Params) (image : List Byte) : Host.Outcome State Fault Refusal :=
  (State.fresh p 0).load image

end Sys2Proof.Machine
end

