-- ==== Sys2Proof/Safety.lean ====
section
/-! DEFINITION. The terms claims use: parts of the state and frames, the read and write sets of the instructions, the
invariant of the machine, and the ends of a run. -/

namespace Sys2Proof.Machine

open Sys2Proof

/-! ### Parts and frames -/

/-- One part of the state: a register, a stack slot, a key, a byte of memory, or a whole single field. -/
inductive Part where
  | reg (r : RegIdx)
  | pc
  | index
  | slot (j : Fin Config.stackDepth)
  | sp
  | dt
  | st
  | key (k : KeyIdx)
  | lastKey
  | stopped
  | mem (a : Nat)
  | status
  | latch
  | params
  | draws
  | reports
  | started
  deriving DecidableEq, Repr

/-- The part holds the same in both states. A byte of memory is compared through `Memory.read`. -/
def Part.Same (s t : State) : Part → Prop
  | .reg r => t.v r = s.v r
  | .pc => t.pc = s.pc
  | .index => t.index = s.index
  | .slot j => t.stack[j] = s.stack[j]
  | .sp => t.sp = s.sp
  | .dt => t.dt = s.dt
  | .st => t.st = s.st
  | .key k => t.key k = s.key k
  | .lastKey => t.lastKey = s.lastKey
  | .stopped => t.stopped = s.stopped
  | .mem a => t.mem.read a = s.mem.read a
  | .status => t.status = s.status
  | .latch => t.latch = s.latch
  | .params => t.params = s.params
  | .draws => t.draws = s.draws
  | .reports => t.reports = s.reports
  | .started => t.started = s.started

/-- From `s` to `t` nothing but the parts in `ps` changes. -/
def OnlyChanges (ps : List Part) (s t : State) : Prop := ∀ p, p ∉ ps → p.Same s t

/-- What executing an instruction may write (spec/10_state.md R22, R38), in the state it executes in: the flag of 7XNN
only under ADD_IMM_SETS_VF, the slot of CALL at `sp`, and `status` for the instructions that can fault or wait. -/
def mayWrite (i : Instr) (s : State) : List Part :=
  match i with
  | .ret => [.pc, .sp, .status]
  | .jp _ => [.pc]
  | .call _ => if h : s.sp.val < Config.stackDepth then [.pc, .sp, .slot ⟨s.sp.val, h⟩] else [.status]
  | .seByte _ _ => [.pc]
  | .sneByte _ _ => [.pc]
  | .seReg _ _ => [.pc]
  | .ldByte x _ => [.reg x]
  | .addByte x _ => if s.params.addImmSetsVF then [.reg x, .reg vf] else [.reg x]
  | .ldReg x _ => [.reg x]
  | .or x _ => [.reg x]
  | .and x _ => [.reg x]
  | .xor x _ => [.reg x]
  | .addReg x _ => [.reg x, .reg vf]
  | .sub x _ => [.reg x, .reg vf]
  | .shr x _ => [.reg x, .reg vf]
  | .subn x _ => [.reg x, .reg vf]
  | .shl x _ => [.reg x, .reg vf]
  | .sneReg _ _ => [.pc]
  | .jpV0 _ => [.pc]
  | .rnd x _ => [.reg x, .draws]
  | .skp _ => [.pc, .status]
  | .sknp _ => [.pc, .status]
  | .ldVxDt x => [.reg x]
  | .ldVxK x => [.reg x, .status]
  | .ldDtVx _ => [.dt]
  | .ldStVx _ => [.st]

/-- The registers an instruction reads (the table of spec/10_state.md R22). -/
def readRegs : Instr → List RegIdx
  | .ret => []
  | .jp _ => []
  | .call _ => []
  | .seByte x _ => [x]
  | .sneByte x _ => [x]
  | .seReg x y => [x, y]
  | .ldByte _ _ => []
  | .addByte x _ => [x]
  | .ldReg _ y => [y]
  | .or x y => [x, y]
  | .and x y => [x, y]
  | .xor x y => [x, y]
  | .addReg x y => [x, y]
  | .sub x y => [x, y]
  | .shr _ y => [y]
  | .subn x y => [x, y]
  | .shl _ y => [y]
  | .sneReg x y => [x, y]
  | .jpV0 _ => [v0]
  | .rnd _ _ => []
  | .skp x => [x]
  | .sknp x => [x]
  | .ldVxDt _ => []
  | .ldVxK _ => []
  | .ldDtVx x => [x]
  | .ldStVx x => [x]

/-- The program-counter classes of spec/40_sequencer.md R105. -/
inductive PcClass where
  | ordinary
  | skip
  | transfer
  deriving DecidableEq, Repr

/-- The class R105 lists an instruction under. -/
def pcClass : Instr → PcClass
  | .ret => .transfer
  | .jp _ => .transfer
  | .call _ => .transfer
  | .jpV0 _ => .transfer
  | .seByte _ _ => .skip
  | .sneByte _ _ => .skip
  | .seReg _ _ => .skip
  | .sneReg _ _ => .skip
  | .skp _ => .skip
  | .sknp _ => .skip
  | .ldByte _ _ => .ordinary
  | .addByte _ _ => .ordinary
  | .ldReg _ _ => .ordinary
  | .or _ _ => .ordinary
  | .and _ _ => .ordinary
  | .xor _ _ => .ordinary
  | .addReg _ _ => .ordinary
  | .sub _ _ => .ordinary
  | .shr _ _ => .ordinary
  | .subn _ _ => .ordinary
  | .shl _ _ => .ordinary
  | .rnd _ _ => .ordinary
  | .ldVxDt _ => .ordinary
  | .ldVxK _ => .ordinary
  | .ldDtVx _ => .ordinary
  | .ldStVx _ => .ordinary

/-! ### Faults -/

/-- The fault executing an instruction raises, if any (spec/60_exceptions.md R200, R203): its single check. -/
def faultOf (i : Instr) (s : State) : Option Cause :=
  match i with
  | .ret => if s.sp.val = 0 then some .stackUnderflow else none
  | .call _ => if s.sp.val = 48 then some .stackOverflow else none
  | .skp x => if 0xF < (s.v x).toNat then some .keyIndexOutOfRange else none
  | .sknp x => if 0xF < (s.v x).toNat then some .keyIndexOutOfRange else none
  | .jp _ => none
  | .seByte _ _ => none
  | .sneByte _ _ => none
  | .seReg _ _ => none
  | .ldByte _ _ => none
  | .addByte _ _ => none
  | .ldReg _ _ => none
  | .or _ _ => none
  | .and _ _ => none
  | .xor _ _ => none
  | .addReg _ _ => none
  | .sub _ _ => none
  | .shr _ _ => none
  | .subn _ _ => none
  | .shl _ _ => none
  | .sneReg _ _ => none
  | .jpV0 _ => none
  | .rnd _ _ => none
  | .ldVxDt _ => none
  | .ldVxK _ => none
  | .ldDtVx _ => none
  | .ldStVx _ => none

/-- The record is true of the state: it names the word in memory that the faulting step fetched, `pc` stands where
R201 leaves it, and the cause's condition of R200 holds. -/
def RecordTrue (s : State) (r : FaultRecord) : Prop :=
  match r.cause with
  | .fetchOutOfRange => r.addr = s.pc ∧ Config.lastFetch < s.pc.toNat ∧ r.word = 0
  | .unrecognizedInstruction =>
    wordAt s.mem r.addr.toNat = some r.word ∧ s.pc = r.addr + 2 ∧ decode r.word = .unknown ∧
      s.params.unknownPolicy = .fault
  | .stackOverflow =>
    wordAt s.mem r.addr.toNat = some r.word ∧ s.pc = r.addr + 2 ∧ s.sp.val = 48 ∧
      ∃ nnn, decode r.word = .instr (.call nnn)
  | .stackUnderflow =>
    wordAt s.mem r.addr.toNat = some r.word ∧ s.pc = r.addr + 2 ∧ s.sp.val = 0 ∧ decode r.word = .instr .ret
  | .keyIndexOutOfRange =>
    wordAt s.mem r.addr.toNat = some r.word ∧ s.pc = r.addr + 2 ∧
      ∃ x, (decode r.word = .instr (.skp x) ∨ decode r.word = .instr (.sknp x)) ∧ 0xF < (s.v x).toNat

/-! ### The invariant -/

/-- What holds of every state the block can reach. -/
structure Consistent (s : State) : Prop where
  /-- Memory is in its canonical form and inside the address space (spec/20_memory.md R50). -/
  memory : s.mem.Wf
  /-- Before the first step nothing has run (spec/70_reset_and_hazards.md R242, R244). -/
  unstarted : s.started = false → s.status = .run ∧ s.pc = 0x200 ∧ s.sp.val = 0 ∧ s.reports = []
  /-- A pending wait is that of the FX0A just before `pc` (spec/45_keys_timers.md R173). -/
  waiting : ∀ x, s.status = .waitKey x →
    ∃ w, wordAt s.mem (s.pc - 2).toNat = some w ∧ decode w = .instr (.ldVxK x)
  /-- The record of a fault is true of the state (spec/10_state.md R37; spec/60_exceptions.md R201). -/
  faulted : ∀ r, s.status = .faulted r → RecordTrue s r
  /-- Every report is of an `Unknown` word in memory, and only under `Skip` (spec/60_exceptions.md R204, R205). -/
  reported : ∀ r ∈ s.reports, s.params.unknownPolicy = .skip ∧ r.cause = .unrecognizedInstruction ∧
    wordAt s.mem r.addr.toNat = some r.word ∧ decode r.word = .unknown

/-! ### Ends of a run (spec/70_reset_and_hazards.md R251, R252) -/

/-- A failed end: the run has faulted (R252). -/
def State.failureEnd (s : State) : Bool :=
  match s.status with
  | .faulted _ => true
  | .run => false
  | .waitKey _ => false

/-- A successful end: running, not stopped, at a jump to itself (R252). -/
def State.SuccessEnd (s : State) : Prop :=
  s.status = .run ∧ s.stopped = false ∧
    ∃ w nnn, s.fetch = some w ∧ decode w = .instr (.jp nnn) ∧ zextAddr nnn = s.pc

/-- The event is no `reset`. -/
def Event.keeps (e : Event) : Bool := decide (e ≠ .env .reset)

end Sys2Proof.Machine
end

