-- ==== Sys2Proof/Certificates/Slice0/Obligations.lean ====
section
/-! DEFINITION. The statements for the provers. Frames are `OnlyChanges`; the terms are those of Safety.lean. -/

open Sys2Proof Sys2Proof.Machine

/-! ### Encoding (spec/30_encoding.md) -/

/-- Decoding an encoded instruction gives it back, from its word and from its two bytes in memory order, for every
instruction (R72, R77, R83). -/
def Obligations.DecodeOfEncodeIsTheInstruction : Prop :=
  ∀ i : Instr, decode (encode i) = .instr i ∧
    ∀ rest, decodeBytes ((bytesOfWord (encode i)).1 :: (bytesOfWord (encode i)).2 :: rest) = some (.instr i, rest)

/-- Encoding a decoded instruction gives its word back, but for RET, whose bits 11:8 the decoder ignores (R72, R77).
That it ignores them is the spec's own decision D5. -/
def Obligations.EncodeOfDecodeIsTheWord : Prop :=
  (∀ w i, decode w = .instr i → i ≠ .ret → encode i = w) ∧
  ∀ w : Word, decode w = .instr .ret ↔ w &&& 0xF0FF = 0x00EE

/-- A word decodes by the one row of the opcode map it selects; the rows are disjoint, and a word that selects none is
`Unknown` (R78, R80). The masks of RET and of the two-register skips are the spec's own decision D5 (log entry 9). -/
def Obligations.OpcodeMapDecides : Prop :=
  opcodeMap.length = 26 ∧
  ∀ w : Word,
    (decode w = .unknown ↔ ∀ r ∈ opcodeMap, ¬ r.Selects w) ∧
    (∀ i, decode w = .instr i → i.row ∈ opcodeMap ∧ i.row.Selects w) ∧
    ∀ r ∈ opcodeMap, ∀ r' ∈ opcodeMap, r.Selects w → r'.Selects w → r = r'

/-- The fields are the masks and shifts of R71. -/
def Obligations.FieldsAreMasksAndShifts : Prop :=
  ∀ w : Word,
    (fieldF w).toNat = w.toNat >>> 12 ∧
    (fieldX w).toNat = (w.toNat &&& 0x0F00) >>> 8 ∧
    (fieldY w).toNat = (w.toNat &&& 0x00F0) >>> 4 ∧
    (fieldN w).toNat = w.toNat &&& 0x000F ∧
    (fieldNN w).toNat = w.toNat &&& 0x00FF ∧
    (fieldNNN w).toNat = w.toNat &&& 0x0FFF

/-- 35696 of the 65536 words decode to an instruction and 29840 to `Unknown` (R79). The count rests on the spec's own
decision D5 (log entry 9), which gives RET sixteen words. -/
def Obligations.DecodableWordsAreCounted : Prop :=
  Nat.count (fun n => decode (BitVec.ofNat 16 n) ≠ .unknown) 65536 = 35696 ∧
  Nat.count (fun n => decode (BitVec.ofNat 16 n) = .unknown) 65536 = 29840

/-- Words written out from the patterns of R78, at least one of each family 0x0 to 0x9, 0xB, 0xC, 0xE and 0xF, and words
of the Unknown space (R80). That 0x05EE is RET and 0x5121 `Unknown` is the spec's own decision D5 (log entry 9). -/
def Obligations.WordsOfTheMapDecode : Prop :=
  decode 0x05EE = .instr .ret ∧ decode 0x1234 = .instr (.jp 0x234) ∧ decode 0x22AE = .instr (.call 0x2AE) ∧
  decode 0x3F01 = .instr (.seByte 0xF 0x01) ∧ decode 0x4310 = .instr (.sneByte 3 0x10) ∧
  decode 0x5120 = .instr (.seReg 1 2) ∧
  decode 0x6015 = .instr (.ldByte 0 0x15) ∧ decode 0x7000 = .instr (.addByte 0 0) ∧
  decode 0x8106 = .instr (.shr 1 0) ∧ decode 0x820E = .instr (.shl 2 0) ∧
  decode 0x9120 = .instr (.sneReg 1 2) ∧
  decode 0xB210 = .instr (.jpV0 0x210) ∧ decode 0xC30F = .instr (.rnd 3 0x0F) ∧
  decode 0xE59E = .instr (.skp 5) ∧ decode 0xF50A = .instr (.ldVxK 5) ∧
  decode 0x5121 = .unknown ∧ decode 0x8018 = .unknown ∧ decode 0xA123 = .unknown ∧ decode 0xF033 = .unknown

/-- A well-formed assembler line assembles to exactly one instruction, whose line it is, and every instruction has its
line; a line that is not well-formed assembles to nothing (R84). The mnemonics are the spec's own decision D22; lines as
data and their well-formedness are the model's (log entry 11, DEDUCED). -/
def Obligations.AssemblerLinesNameInstructions : Prop :=
  (∀ i : Instr, assemble i.toAsm = some i) ∧
  (∀ l i, assemble l = some i → i.toAsm = l) ∧
  (∀ l : AsmLine, l.wellFormed = true → ∃ i, assemble l = some i) ∧
  ∀ l : AsmLine, l.wellFormed = false → assemble l = none

/-! ### The step (spec/20_memory.md, spec/40_sequencer.md) -/

/-- A fetch reads the byte at `pc` as the high byte and the next as the low byte, at an odd `pc` as at an even one.
The byte order and the odd `pc` are the spec's own decisions D1 and D3. -/
def Obligations.FetchReadsHighByteFirst : Prop :=
  ∀ (s : State) (hi lo : Byte),
    s.mem.read s.pc.toNat = some hi → s.mem.read (s.pc.toNat + 1) = some lo →
    ∃ w, s.fetch = some w ∧ w.toNat = hi.toNat * 256 + lo.toNat

/-- A step at a `pc` above 0xFFE takes the fault FetchOutOfRange, and only `status` changes. The fault is the spec's own
decision D2. -/
def Obligations.FetchAboveMemoryFaults : Prop :=
  ∀ s : State, s.status = .run → s.stopped = false → 0xFFE < s.pc.toNat →
    step s = .next { s with status := .faulted ⟨.fetchOutOfRange, s.pc, 0⟩ }

/-- A step runs the decoded instruction, in the state after the advance phase: `pc` moved past the word modulo 2^16,
and the sequencer keeping the address and the word (R102, R103). That this copy is the field `latch` is log entry 4
(DEDUCED), and `started` is the model's own field (log entry 5, DESIGN CHOICE). -/
def Obligations.StepRunsTheDecodedInstruction : Prop :=
  ∀ (s : State) (w : Word) (i : Instr),
    s.status = .run → s.stopped = false → s.fetch = some w → decode w = .instr i →
    step s = exec i { s with pc := BitVec.ofNat 16 (s.pc.toNat + 2), latch := ⟨s.pc, w⟩, started := true }

/-- A word placed at `pc` is the one the next step runs: any instruction, at any `pc` a fetch may start at. `withFetchWord`
is the model's own device for placing a word (log entry 6, DEDUCED); that an odd `pc` runs too is the spec's own decision
D3 (log entry 9). -/
def Obligations.PlacedWordIsTheOneRun : Prop :=
  ∀ (s : State) (i : Instr),
    s.mem.Wf → s.status = .run → s.stopped = false → s.pc.toNat ≤ 0xFFE →
    step (s.withFetchWord 16 (encode i).toNat) =
      exec i ((s.withFetchWord 16 (encode i).toNat).advance (encode i))

/-- A step on an `Unknown` word raises UnrecognizedInstruction under the policy Fault, and under Skip emits one report
and goes on after the word; nothing else changes. The two policies are the spec's own decision D8; `latch`, `reports`
and `started` are log entries 3 to 5. -/
def Obligations.UnknownFollowsThePolicy : Prop :=
  ∀ (s : State) (w : Word),
    s.status = .run → s.stopped = false → s.fetch = some w → decode w = .unknown →
    step s = .next
      (match s.params.unknownPolicy with
       | .fault => { s with pc := s.pc + 2, latch := ⟨s.pc, w⟩, started := true,
                            status := .faulted ⟨.unrecognizedInstruction, s.pc, w⟩ }
       | .skip => { s with pc := s.pc + 2, latch := ⟨s.pc, w⟩, started := true,
                           reports := s.reports ++ [⟨.unrecognizedInstruction, s.pc, w⟩] })

/-- The core has an enabled step exactly where it is not stopped and either running or waiting with a key pressed; else
`step` stops by name. The hold by `stopped` is the spec's own decision D16, the wait D13; the names of the stops, and
`terminated` where a state is both Faulted and stopped, are log entry 7 (DESIGN CHOICE). -/
def Obligations.StepIsEnabledExactly : Prop :=
  (∀ s : State, (∃ t, step s = .next t) ↔
    s.stopped = false ∧ (s.status = .run ∨ ∃ x, s.status = .waitKey x ∧ ∃ k, s.key k = true)) ∧
  (∀ (s : State) (r : FaultRecord), s.status = .faulted r → step s = .fault (.terminated r)) ∧
  (∀ s : State, (∀ r, s.status ≠ .faulted r) → s.stopped = true → step s = .refused (.held .stopped)) ∧
  ∀ (s : State) (x : RegIdx), s.status = .waitKey x → s.stopped = false → (∀ k, s.key k = false) →
    step s = .refused (.held (.noKey x))

/-- The completion step of a wait commits the lowest pressed key to the target register, runs on, and leaves everything
else, `pc` among it, unchanged (spec/45_keys_timers.md R173, R176; the form of the wait is the spec's decision D13). -/
def Obligations.WaitCommitsTheLowestKey : Prop :=
  ∀ (s : State) (x : RegIdx) (k : KeyIdx),
    s.status = .waitKey x → s.stopped = false → s.key k = true →
    (∀ j : KeyIdx, j.toNat < k.toNat → s.key j = false) →
    ∃ t, step s = .next t ∧ (t.v x).toNat = k.toNat ∧ t.status = .run ∧ OnlyChanges [.reg x, .status] s t

/-! ### Invariants and runs -/

/-- The invariant holds of the reset machine, under any parameters. The reset status is the spec's own decision D17 (log
entry 9); `params`, `reports` and `started` are the model's own fields (log entries 1, 3, 5). -/
def Obligations.ResetMachineIsConsistent : Prop :=
  Consistent State.reset ∧ ∀ p n, Consistent (State.fresh p n)

/-- Every step of the core keeps the invariant: memory canonical, a pending wait that of the FX0A before `pc`, a fault
record true of the state, every report of an `Unknown` word. The faults and their records are the spec's own decisions
D2 and D8 to D12, the wait D13 (log entry 9); `latch`, `reports` and `started`, through which they are told, are the
model's own (log entries 3 to 5). -/
def Obligations.StepKeepsTheMachineConsistent : Prop :=
  ∀ s t : State, Consistent s → step s = .next t → Consistent t

/-- Every run, under every interleaving of core steps and environment actions, keeps the invariant. The interleaving is
the spec's own decision D15 (log entry 9), a run as a list of events log entry 8, any number of loads before the first
step log entry 14 (DESIGN CHOICE). -/
def Obligations.EveryRunKeepsTheMachineConsistent : Prop :=
  ∀ (es : List Event) (s t : State), Consistent s → runEvents es s = .next t → Consistent t

/-- A fault ends the run: without a reset no core step is ever taken again, and the record, the registers, `pc` and the
call stack stand (spec/60_exceptions.md R202). That the fault holds until a reset and keeps its
record is the spec's own decision D10 (log entry 9). -/
def Obligations.AFaultEndsTheRun : Prop :=
  ∀ (es : List Event) (s t : State) (r : FaultRecord),
    s.status = .faulted r → (∀ e ∈ es, e ≠ .env .reset) → runEvents es s = .next t →
    .core ∉ es ∧ t.status = .faulted r ∧ t.regs = s.regs ∧ t.pc = s.pc ∧ t.sp = s.sp ∧ t.stack = s.stack

/-- From the first step to a reset no byte of memory changes, nor `I`, nor the parameters, whatever runs and whatever
the environment does (spec/20_memory.md R56; that no host writes memory during a run is the spec's decision D19, that
nothing touches `I` D24; the fields `params` and `started` are log entries 1 and 5, DESIGN CHOICE). -/
def Obligations.MemoryIsConstantOnceStarted : Prop :=
  ∀ (es : List Event) (s t : State),
    s.started = true → (∀ e ∈ es, e ≠ .env .reset) → runEvents es s = .next t →
    t.mem = s.mem ∧ t.index = s.index ∧ t.params = s.params ∧ t.started = true

/-- No core step writes what only the environment may write, nor memory, nor `I`. That memory is constant during a run is
the spec's own decision D19 and that nothing touches `I` D24 (log entry 9); the parameters are a field of State that
nothing changes by the model's own choice (log entry 1, DESIGN CHOICE). -/
def Obligations.CoreStepLeavesTheEnvironmentsState : Prop :=
  ∀ s t : State, step s = .next t →
    t.keys = s.keys ∧ t.lastKey = s.lastKey ∧ t.stopped = s.stopped ∧ t.mem = s.mem ∧ t.index = s.index ∧
      t.params = s.params

/-- No action of the environment but a reset writes what only the core may write (the writers of spec/10_state.md, R206).
That none writes memory once the run has started is the spec's own decision D19 (log entry 9), told through the model's
own flag `started` (log entry 5, DESIGN CHOICE); `params`, `draws`, `reports` and `latch` are the model's own fields too
(log entries 1 to 4). -/
def Obligations.EnvironmentLeavesTheCoresState : Prop :=
  ∀ (a : EnvAction) (s t : State), a ≠ .reset → act a s = .next t →
    t.regs = s.regs ∧ t.pc = s.pc ∧ t.index = s.index ∧ t.stack = s.stack ∧ t.sp = s.sp ∧ t.status = s.status ∧
      t.latch = s.latch ∧ t.params = s.params ∧ t.draws = s.draws ∧ t.reports = s.reports ∧ t.started = s.started ∧
      (s.started = true → t.mem = s.mem)

/-! ### The environment's actions (spec/60_exceptions.md, spec/70_reset_and_hazards.md) -/

/-- A tick counts both timers down by one, stopping at 0, in every status, and does nothing else. The rule is the
spec's own decision D14. -/
def Obligations.TimerTickCountsDown : Prop :=
  ∀ s : State, ∃ t, act .timerTick s = .next t ∧ t.dt.toNat = s.dt.toNat - 1 ∧ t.st.toNat = s.st.toNat - 1 ∧
    OnlyChanges [.dt, .st] s t

/-- `set_key` writes one key and nothing else (R217; its range 0..15 is the spec's decision D29). -/
def Obligations.SetKeyWritesOneKey : Prop :=
  ∀ (s : State) (k : KeyIdx) (p : Bool), ∃ t, act (.setKey k p) s = .next t ∧ t.key k = p ∧ OnlyChanges [.key k] s t

/-- `record_last_key` and `set_stopped` write the latch and the flag, each nothing else, and a stopped core takes no
step until it is unstopped (R218, R219; the hold is the spec's decision D16). -/
def Obligations.LatchAndStopActionsWriteOneField : Prop :=
  ∀ (s : State) (k : KeyIdx) (h b : Bool),
    (∃ t, act (.recordLastKey k h) s = .next t ∧ t.lastKey = ⟨k, h⟩ ∧ OnlyChanges [.lastKey] s t) ∧
    ∃ t, act (.setStopped b) s = .next t ∧ t.stopped = b ∧ OnlyChanges [.stopped] s t ∧
      (b = true → ∀ u, step t ≠ .next u)

/-- A reset, in any state, leaves every element at the value of R240's table. Those of `I`, the stack slots, the keys,
`stopped`, `last_key_pressed` and the status are the spec's own decision D17 (log entry 9). That a reset keeps the
parameters is no row of that table: it is the model's reading (log entry 12, DEDUCED). -/
def Obligations.ResetGivesTheTablesValues : Prop :=
  ∀ s : State, ∃ t, act .reset s = .next t ∧ (∀ r, t.v r = 0) ∧ t.pc.toNat = 0x200 ∧ t.index = 0 ∧
    (∀ j : Fin 48, t.stack[j] = 0) ∧ t.sp.val = 0 ∧ t.dt = 0 ∧ t.st = 0 ∧ t.lastKey = ⟨0, false⟩ ∧
    t.stopped = false ∧ (∀ k, t.key k = false) ∧ (∀ a, a < 4096 → t.mem.read a = some 0) ∧ t.status = .run ∧
    t.params = s.params

/-- `load` copies an image that fits to 0x200 on, before the first step, and changes nothing else; a longer image is
refused, and so is any load after the first step. The size limit and the moment are the spec's decisions D18, D19 (log
entry 9), and the moment is told through the model's flag `started` (log entry 5). That a second load before the first
step is accepted, and keeps what an earlier, longer image left past its own end, is the model's own choice (log entry 14,
DESIGN CHOICE). -/
def Obligations.LoadCopiesTheImage : Prop :=
  ∀ (image : List Byte) (s : State),
    (s.mem.Wf → s.started = false → image.length ≤ 3584 →
      ∃ t, act (.load image) s = .next t ∧
        (∀ (i : Nat) (b : Byte), image[i]? = some b → t.mem.read (0x200 + i) = some b) ∧
        (∀ a, a < 0x200 ∨ 0x200 + image.length ≤ a → t.mem.read a = s.mem.read a) ∧
        t.mem.Wf ∧ t = { s with mem := t.mem }) ∧
    (s.started = false → 3584 < image.length → act (.load image) s = .refused .imageTooLong) ∧
    (s.started = true → act (.load image) s = .refused .loadAfterStart)

/-- A machine built from an image of at least two bytes that fits first fetches the image's first two bytes, at 0x200,
with every register 0 (spec/70_reset_and_hazards.md R241, R242, R244). The byte order is the spec's own decision D1, the
reset status and flags D17, the size limit D18 (log entry 9). -/
def Obligations.BootedMachineFetchesTheImage : Prop :=
  ∀ (p : Config.Params) (hi lo : Byte) (rest : List Byte), (hi :: lo :: rest).length ≤ 3584 →
    ∃ t, boot p (hi :: lo :: rest) = .next t ∧ t.pc.toNat = 0x200 ∧ (∀ r, t.v r = 0) ∧ t.turn = .fetch ∧
      ∃ w, t.fetch = some w ∧ w.toNat = hi.toNat * 256 + lo.toNat

/-! ### Control transfer (spec/41_control_flow.md) -/

/-- RET with a return address on the stack pops the newest to `pc`, keeps its slot and changes nothing else; with none
it raises StackUnderflow (R120). The fault is the spec's own decision D9, its record D10 and the kept slot D20 (log entry
9); the record is read from the model's field `latch` (log entry 4, DEDUCED). -/
def Obligations.RetPopsTheReturnAddress : Prop :=
  ∀ s : State,
    (∀ (n : Nat) (h : n < 48), s.sp.val = n + 1 →
      ∃ t, exec .ret s = .next t ∧ t.sp.val = n ∧ t.pc = s.stack[n] ∧ OnlyChanges [.pc, .sp] s t) ∧
    (s.sp.val = 0 →
      ∃ t, exec .ret s = .next t ∧ t.status = .faulted ⟨.stackUnderflow, s.latch.addr, s.latch.word⟩ ∧
        OnlyChanges [.status] s t)

/-- JP goes to NNN and changes nothing else (R121). -/
def Obligations.JpGoesToTheAddress : Prop :=
  ∀ (nnn : Addr) (s : State), ∃ t, exec (.jp nnn) s = .next t ∧ t.pc.toNat = nnn.toNat ∧ OnlyChanges [.pc] s t

/-- CALL with a free slot pushes `pc`, which is the instruction's address plus 2, and goes to NNN; with 48 addresses on
the stack it raises StackOverflow (R122). The fault is the spec's own decision D9 and its record D10 (log entry 9); the
record is read from the model's field `latch` (log entry 4, DEDUCED). -/
def Obligations.CallPushesTheReturnAddress : Prop :=
  ∀ (nnn : Addr) (s : State),
    (∀ h : s.sp.val < 48,
      ∃ t, exec (.call nnn) s = .next t ∧ t.stack[s.sp.val] = s.pc ∧ t.sp.val = s.sp.val + 1 ∧
        t.pc.toNat = nnn.toNat ∧ OnlyChanges [.pc, .sp, .slot ⟨s.sp.val, h⟩] s t) ∧
    (s.sp.val = 48 →
      ∃ t, exec (.call nnn) s = .next t ∧ t.status = .faulted ⟨.stackOverflow, s.latch.addr, s.latch.word⟩ ∧
        OnlyChanges [.status] s t)

/-- A CALL below capacity and a later RET that finds the stack as the CALL left it restore `pc` and `sp`: whatever the
subroutine does to everything else, the return goes back (R122, the source's round trip). That both keep the slots is the
spec's own decision D20 (log entry 9). -/
def Obligations.RetAfterCallReturns : Prop :=
  ∀ (nnn : Addr) (s : State), s.sp.val < 48 →
    ∃ t, exec (.call nnn) s = .next t ∧
      ∀ t' : State, t'.stack = t.stack → t'.sp = t.sp →
        ∃ u, exec .ret t' = .next u ∧ u.pc = s.pc ∧ u.sp = s.sp ∧ u.stack = t.stack

/-- JP V0 goes to the exact sum NNN + V0, which may lie above 0xFFF. That the sum is not masked is the spec's own
decision D4. -/
def Obligations.JpV0GoesToTheUnmaskedSum : Prop :=
  ∀ (nnn : Addr) (s : State), ∃ t, exec (.jpV0 nnn) s = .next t ∧ t.pc.toNat = nnn.toNat + (s.v 0).toNat ∧
    OnlyChanges [.pc] s t

/-! ### Skips (spec/42_skips.md) -/

/-- SE Vx, byte advances `pc` by an extra 2 exactly where VX equals NN; SNE is its complement (R130, R131). -/
def Obligations.ByteSkipsAreComplements : Prop :=
  ∀ (x : RegIdx) (nn : Byte) (s : State),
    (∃ t, exec (.seByte x nn) s = .next t ∧ t.pc = (if s.v x = nn then s.pc + 2 else s.pc) ∧ OnlyChanges [.pc] s t) ∧
    ∃ t, exec (.sneByte x nn) s = .next t ∧ t.pc = (if s.v x = nn then s.pc else s.pc + 2) ∧ OnlyChanges [.pc] s t

/-- SE Vx, Vy advances `pc` by an extra 2 exactly where the registers are equal; SNE is its complement (R132, R133). -/
def Obligations.RegisterSkipsAreComplements : Prop :=
  ∀ (x y : RegIdx) (s : State),
    (∃ t, exec (.seReg x y) s = .next t ∧ t.pc = (if s.v x = s.v y then s.pc + 2 else s.pc) ∧
      OnlyChanges [.pc] s t) ∧
    ∃ t, exec (.sneReg x y) s = .next t ∧ t.pc = (if s.v x = s.v y then s.pc else s.pc + 2) ∧ OnlyChanges [.pc] s t

/-! ### Immediate operations (spec/43_immediate.md) -/

/-- LD Vx, byte writes NN to VX and nothing else (R140). -/
def Obligations.LdByteWritesTheByte : Prop :=
  ∀ (x : RegIdx) (nn : Byte) (s : State), ∃ t, exec (.ldByte x nn) s = .next t ∧ t.v x = nn ∧ OnlyChanges [.reg x] s t

/-- ADD Vx, byte wraps modulo 256; VF is written, last and with the carry, only under ADD_IMM_SETS_VF. The parameter is
the spec's own decision D7, the order D6. -/
def Obligations.AddByteWrapsAndFlagsByParameter : Prop :=
  ∀ (x : RegIdx) (nn : Byte) (s : State),
    (s.params.addImmSetsVF = false →
      ∃ t, exec (.addByte x nn) s = .next t ∧ (t.v x).toNat = ((s.v x).toNat + nn.toNat) % 256 ∧
        OnlyChanges [.reg x] s t) ∧
    (s.params.addImmSetsVF = true →
      ∃ t, exec (.addByte x nn) s = .next t ∧
        (x ≠ 0xF → (t.v x).toNat = ((s.v x).toNat + nn.toNat) % 256) ∧
        (t.v 0xF).toNat = (if 256 ≤ (s.v x).toNat + nn.toNat then 1 else 0) ∧
        OnlyChanges [.reg x, .reg 0xF] s t)

/-- RND writes the drawn byte AND NN, so no bit outside NN is ever set, and draws one byte (R142). The draw is the
model's free value (log entry 2). -/
def Obligations.RndWritesTheMaskedDraw : Prop :=
  ∀ (x : RegIdx) (nn : Byte) (s : State),
    ∃ t, exec (.rnd x nn) s = .next t ∧ t.v x = Config.rndByte s.draws &&& nn ∧ t.v x &&& ~~~nn = 0 ∧
      t.draws = s.draws + 1 ∧ OnlyChanges [.reg x, .draws] s t

/-! ### Register-register operations (spec/44_alu.md) -/

/-- LD Vx, Vy copies VY to VX and changes nothing else (R151). -/
def Obligations.LdRegCopiesTheRegister : Prop :=
  ∀ (x y : RegIdx) (s : State), ∃ t, exec (.ldReg x y) s = .next t ∧ t.v x = s.v y ∧ OnlyChanges [.reg x] s t

/-- OR, AND and XOR write their bitwise result to VX and nothing else: VF keeps its value unless X is 15
(R152, R153, R154). -/
def Obligations.LogicOperationsWriteVxOnly : Prop :=
  ∀ (x y : RegIdx) (s : State),
    (∃ t, exec (.or x y) s = .next t ∧ t.v x = s.v x ||| s.v y ∧ OnlyChanges [.reg x] s t) ∧
    (∃ t, exec (.and x y) s = .next t ∧ t.v x = s.v x &&& s.v y ∧ OnlyChanges [.reg x] s t) ∧
    ∃ t, exec (.xor x y) s = .next t ∧ t.v x = s.v x ^^^ s.v y ∧ OnlyChanges [.reg x] s t

/-- ADD Vx, Vy: the sum modulo 256, and VF the carry, always written and written last (R155; the order is the spec's
decision D6). -/
def Obligations.AddRegSumsWithCarry : Prop :=
  ∀ (x y : RegIdx) (s : State),
    ∃ t, exec (.addReg x y) s = .next t ∧
      (x ≠ 0xF → (t.v x).toNat = ((s.v x).toNat + (s.v y).toNat) % 256) ∧
      (t.v 0xF).toNat = (if 256 ≤ (s.v x).toNat + (s.v y).toNat then 1 else 0) ∧
      OnlyChanges [.reg x, .reg 0xF] s t

/-- SUB Vx, Vy: VX - VY modulo 256, and VF 1 exactly where a borrow occurred, written last (R156; the order is the
spec's decision D6). -/
def Obligations.SubSubtractsWithBorrow : Prop :=
  ∀ (x y : RegIdx) (s : State),
    ∃ t, exec (.sub x y) s = .next t ∧
      (x ≠ 0xF → ((t.v x).toNat : Int) = ((s.v x).toNat - (s.v y).toNat : Int) % 256) ∧
      (t.v 0xF).toNat = (if (s.v x).toNat < (s.v y).toNat then 1 else 0) ∧
      OnlyChanges [.reg x, .reg 0xF] s t

/-- SUBN Vx, Vy: VY - VX modulo 256, and VF 1 exactly where a borrow occurred, written last (R158; the order is the
spec's decision D6). -/
def Obligations.SubnSubtractsReversed : Prop :=
  ∀ (x y : RegIdx) (s : State),
    ∃ t, exec (.subn x y) s = .next t ∧
      (x ≠ 0xF → ((t.v x).toNat : Int) = ((s.v y).toNat - (s.v x).toNat : Int) % 256) ∧
      (t.v 0xF).toNat = (if (s.v y).toNat < (s.v x).toNat then 1 else 0) ∧
      OnlyChanges [.reg x, .reg 0xF] s t

/-- SHR Vx, Vy: half of VY, and VF the bit shifted out, bit 0 of VY, written last (R157; the order is the spec's
decision D6). -/
def Obligations.ShrHalvesVy : Prop :=
  ∀ (x y : RegIdx) (s : State),
    ∃ t, exec (.shr x y) s = .next t ∧
      (x ≠ 0xF → t.v x = s.v y >>> 1) ∧
      (t.v 0xF).toNat = (s.v y).toNat % 2 ∧
      OnlyChanges [.reg x, .reg 0xF] s t

/-- SHL Vx, Vy: VY doubled modulo 256, and VF the bit shifted out, bit 7 of VY, written last (R159; the order is the
spec's decision D6). -/
def Obligations.ShlDoublesVy : Prop :=
  ∀ (x y : RegIdx) (s : State),
    ∃ t, exec (.shl x y) s = .next t ∧
      (x ≠ 0xF → t.v x = s.v y <<< 1) ∧
      (t.v 0xF).toNat = (s.v y).toNat / 128 ∧
      OnlyChanges [.reg x, .reg 0xF] s t

/-! ### Keys and timers (spec/45_keys_timers.md) -/

/-- SKP advances `pc` by an extra 2 exactly where the key VX names is pressed; where VX names no key it raises
KeyIndexOutOfRange. The fault is the spec's own decision D12 and its record D10 (log entry 9); the record is read from the
model's field `latch` (log entry 4, DEDUCED). -/
def Obligations.SkpSkipsOnAPressedKey : Prop :=
  ∀ (x : RegIdx) (s : State),
    (∀ k : KeyIdx, (s.v x).toNat = k.toNat →
      ∃ t, exec (.skp x) s = .next t ∧ t.pc = (if s.key k = true then s.pc + 2 else s.pc) ∧ OnlyChanges [.pc] s t) ∧
    (0xF < (s.v x).toNat →
      ∃ t, exec (.skp x) s = .next t ∧ t.status = .faulted ⟨.keyIndexOutOfRange, s.latch.addr, s.latch.word⟩ ∧
        OnlyChanges [.status] s t)

/-- SKNP advances `pc` by an extra 2 exactly where the key VX names is not pressed; where VX names no key it raises
KeyIndexOutOfRange. The fault is the spec's own decision D12 and its record D10 (log entry 9); the record is read from the
model's field `latch` (log entry 4, DEDUCED). -/
def Obligations.SknpSkipsOnAReleasedKey : Prop :=
  ∀ (x : RegIdx) (s : State),
    (∀ k : KeyIdx, (s.v x).toNat = k.toNat →
      ∃ t, exec (.sknp x) s = .next t ∧ t.pc = (if s.key k = true then s.pc else s.pc + 2) ∧ OnlyChanges [.pc] s t) ∧
    (0xF < (s.v x).toNat →
      ∃ t, exec (.sknp x) s = .next t ∧ t.status = .faulted ⟨.keyIndexOutOfRange, s.latch.addr, s.latch.word⟩ ∧
        OnlyChanges [.status] s t)

/-- LD Vx, DT reads the delay timer into VX and changes nothing else (R172). -/
def Obligations.LdVxDtReadsTheTimer : Prop :=
  ∀ (x : RegIdx) (s : State), ∃ t, exec (.ldVxDt x) s = .next t ∧ t.v x = s.dt ∧ OnlyChanges [.reg x] s t

/-- LD Vx, K commits the lowest pressed key at once; with none pressed it starts the wait and changes only the status
(R173, R176; the form of the wait is the spec's decision D13). -/
def Obligations.LdVxKCommitsOrWaits : Prop :=
  ∀ (x : RegIdx) (s : State),
    (∀ k : KeyIdx, s.key k = true → (∀ j : KeyIdx, j.toNat < k.toNat → s.key j = false) →
      ∃ t, exec (.ldVxK x) s = .next t ∧ (t.v x).toNat = k.toNat ∧ OnlyChanges [.reg x] s t) ∧
    ((∀ k, s.key k = false) →
      ∃ t, exec (.ldVxK x) s = .next t ∧ t.status = .waitKey x ∧ OnlyChanges [.status] s t)

/-- LD DT, Vx writes the delay timer and nothing else (R174). -/
def Obligations.LdDtVxWritesTheTimer : Prop :=
  ∀ (x : RegIdx) (s : State), ∃ t, exec (.ldDtVx x) s = .next t ∧ t.dt = s.v x ∧ OnlyChanges [.dt] s t

/-- LD ST, Vx writes the sound timer and nothing else, and `sound_active` holds after it exactly where VX is not 0
(R175; the output is the spec's own decision D30). -/
def Obligations.LdStVxWritesTheSoundTimer : Prop :=
  ∀ (x : RegIdx) (s : State), ∃ t, exec (.ldStVx x) s = .next t ∧ t.st = s.v x ∧
    (t.soundActive = true ↔ (s.v x).toNat ≠ 0) ∧ OnlyChanges [.st] s t

/-! ### All instructions -/

/-- Every instruction completes in every state, and changes nothing but what the tables of spec/10_state.md R22 and R38
let it write, and RND the draw counter, which is no element of those tables but the model's own field (log entry 2,
DESIGN CHOICE). That 7XNN writes VF only under ADD_IMM_SETS_VF is the spec's own decision D7, that RET and CALL at the
stack's ends and SKP and SKNP above 15 write only `status` D9 and D12, that LD Vx, K writes it D13 (log entry 9). -/
def Obligations.EveryInstructionKeepsItsFrame : Prop :=
  ∀ (i : Instr) (s : State), ∃ t, exec i s = .next t ∧ OnlyChanges (mayWrite i s) s t

/-- No instruction depends on a register it does not read by the table of spec/10_state.md R22: another value there
changes no other part of the outcome, and the register itself ends with the same value in both runs, or untouched in
both. For RND the byte drawn is held equal in the two runs by the model's own choice, in which equal draw counters draw
equal bytes (log entry 2, DESIGN CHOICE): of the block it says this for the same drawn byte only. -/
def Obligations.UnreadRegistersDoNotMatter : Prop :=
  ∀ (i : Instr) (r : RegIdx) (b : Byte) (s : State), r ∉ readRegs i →
    ∃ t t', exec i s = .next t ∧ exec i (s.setV r b) = .next t' ∧ (∀ p : Part, p ≠ .reg r → p.Same t t') ∧
      (t'.v r = t.v r ∨ t.v r = s.v r ∧ t'.v r = b)

/-- No step depends on `I` or on `last_key_pressed`. That nothing reads them is the spec's own decisions D24 and D25 (log
entry 9). For a step on RND the byte drawn is held equal in the two runs by the model's own choice, in which equal draw
counters draw equal bytes (log entry 2, DESIGN CHOICE): of the block it says this for the same drawn byte only. -/
def Obligations.IndexAndKeyLatchAreInert : Prop :=
  ∀ (s t : State) (a : Word) (l : LastKey), step s = .next t →
    step { s with index := a, lastKey := l } = .next { t with index := a, lastKey := l }

/-- An instruction faults exactly where its single check of spec/60_exceptions.md R200 fires, and a fault is precise:
only `status` changes, to the record of the instruction in execution (R201, R203). The causes and the record are the
spec's own decisions D9 to D12 (log entry 9); the record is read from the model's field `latch` (log entry 4, DEDUCED). -/
def Obligations.FaultsAreExactAndPrecise : Prop :=
  ∀ (i : Instr) (s : State), s.status = .run →
    ∃ t, exec i s = .next t ∧
      (∀ c, faultOf i s = some c → t = { s with status := .faulted ⟨c, s.latch.addr, s.latch.word⟩ }) ∧
      (faultOf i s = none → ∀ r, t.status ≠ .faulted r)

/-- How a step leaves `pc` by the class of its instruction: ordinary instructions at a + 2, skips at a + 2 or a + 4
(spec/40_sequencer.md R105). That the addition wraps at 2^16 and is not masked is the spec's own decision D4 (log
entry 9). -/
def Obligations.StepAdvancesPcByClass : Prop :=
  ∀ (s t : State) (w : Word) (i : Instr),
    s.status = .run → s.stopped = false → s.fetch = some w → decode w = .instr i → step s = .next t →
    (pcClass i = .ordinary → t.pc = s.pc + 2) ∧ (pcClass i = .skip → t.pc = s.pc + 2 ∨ t.pc = s.pc + 4)

/-- Only CALL and RET move `sp`, by one, and no step changes a live return address (spec/10_state.md R27, R28). That they
leave `sp` where the stack is full or empty is the spec's own decision D9 (log entry 9). -/
def Obligations.OnlyCallAndRetMoveTheStack : Prop :=
  ∀ s t : State, step s = .next t →
    (t.sp ≠ s.sp → ∃ w, s.fetch = some w ∧
      ((∃ nnn, decode w = .instr (.call nnn)) ∧ t.sp.val = s.sp.val + 1 ∨
        decode w = .instr .ret ∧ t.sp.val + 1 = s.sp.val)) ∧
    ∀ j : Fin 48, j.val < s.sp.val → t.stack[j] = s.stack[j]

/-- Between two core steps the timers have fallen by the number of ticks, stopping at 0: a later read of DT never
exceeds what was written (spec/70_reset_and_hazards.md R247; the tick is the spec's decision D14). -/
def Obligations.TimersFallByTheTicks : Prop :=
  ∀ (es : List Event) (s t : State),
    (∀ e ∈ es, e ≠ .core ∧ e ≠ .env .reset) → runEvents es s = .next t →
    t.dt.toNat = s.dt.toNat - es.count (.env .timerTick) ∧ t.st.toNat = s.st.toNat - es.count (.env .timerTick)

/-- From a successful end on, no run without a reset changes a register, `pc`, `I`, the call stack or memory, and no
step faults (spec/70_reset_and_hazards.md R252; the convention is the spec's own decision D26; `started` is the model's
own field, log entry 5, DESIGN CHOICE). -/
def Obligations.ASuccessfulEndIsStable : Prop :=
  ∀ (es : List Event) (s t : State),
    s.SuccessEnd → s.started = true → (∀ e ∈ es, e ≠ .env .reset) → runEvents es s = .next t →
    t.regs = s.regs ∧ t.pc = s.pc ∧ t.index = s.index ∧ t.sp = s.sp ∧ t.stack = s.stack ∧ t.mem = s.mem ∧
      t.status = .run
end

