-- ==== Sys2Proof/Laws/Decode.lean ====
section
/-! SUPPORT. The laws of the word's fields, and that every instruction is well-formed. -/

namespace Sys2Proof.Laws

open Sys2Proof

/-- A field of a word, as a number. -/
theorem fieldF_toNat (w : Word) : (fieldF w).toNat = w.toNat / 4096 := by
  have := w.isLt
  simp only [fieldF, BitVec.extractLsb'_toNat, Nat.shiftRight_eq_div_pow]
  omega

theorem fieldX_toNat (w : Word) : (fieldX w).toNat = w.toNat / 256 % 16 := by
  simp [fieldX, BitVec.extractLsb'_toNat, Nat.shiftRight_eq_div_pow]

theorem fieldY_toNat (w : Word) : (fieldY w).toNat = w.toNat / 16 % 16 := by
  simp [fieldY, BitVec.extractLsb'_toNat, Nat.shiftRight_eq_div_pow]

theorem fieldN_toNat (w : Word) : (fieldN w).toNat = w.toNat % 16 := by
  simp [fieldN, BitVec.extractLsb'_toNat]

theorem fieldNN_toNat (w : Word) : (fieldNN w).toNat = w.toNat % 256 := by
  simp [fieldNN, BitVec.extractLsb'_toNat]

theorem fieldNNN_toNat (w : Word) : (fieldNNN w).toNat = w.toNat % 4096 := by
  simp [fieldNNN, BitVec.extractLsb'_toNat]

/-- Concatenation as a number: the high part counts `2 ^ (width of the low part)` each. -/
theorem append_toNat {m n : Nat} (a : BitVec m) (b : BitVec n) :
    (a ++ b).toNat = a.toNat * 2 ^ n + b.toNat := by
  rw [BitVec.toNat_append, ← Nat.shiftLeft_add_eq_or_of_lt b.isLt, Nat.shiftLeft_eq]

theorem encA_toNat (f : BitVec 4) (nnn : Addr) : (encA f nnn).toNat = f.toNat * 4096 + nnn.toNat :=
  append_toNat f nnn

theorem encXI_toNat (f : BitVec 4) (x : RegIdx) (nn : Byte) :
    (encXI f x nn).toNat = f.toNat * 4096 + x.toNat * 256 + nn.toNat := by
  have h1 : (f ++ x).toNat = f.toNat * 16 + x.toNat := append_toNat f x
  have h2 : (encXI f x nn).toNat = (f ++ x).toNat * 256 + nn.toNat := append_toNat (f ++ x) nn
  rw [h2, h1]; omega

theorem encXY_toNat (f : BitVec 4) (x y : RegIdx) (n : BitVec 4) :
    (encXY f x y n).toNat = f.toNat * 4096 + x.toNat * 256 + y.toNat * 16 + n.toNat := by
  have h1 : (f ++ x).toNat = f.toNat * 16 + x.toNat := append_toNat f x
  have h2 : (f ++ x ++ y).toNat = (f ++ x).toNat * 16 + y.toNat := append_toNat (f ++ x) y
  have h3 : (encXY f x y n).toNat = (f ++ x ++ y).toNat * 16 + n.toNat := append_toNat (f ++ x ++ y) n
  rw [h3, h2, h1]; omega

/-! ### The fields of an encoded word -/

section Shapes
variable (f : BitVec 4) (x y : RegIdx) (n : BitVec 4) (nn : Byte) (nnn : Addr)

@[simp] theorem fieldF_encA : fieldF (encA f nnn) = f := by
  apply BitVec.eq_of_toNat_eq
  have := nnn.isLt
  rw [fieldF_toNat, encA_toNat]; omega

@[simp] theorem fieldNNN_encA : fieldNNN (encA f nnn) = nnn := by
  apply BitVec.eq_of_toNat_eq
  have := nnn.isLt
  rw [fieldNNN_toNat, encA_toNat]; omega

@[simp] theorem fieldF_encXI : fieldF (encXI f x nn) = f := by
  apply BitVec.eq_of_toNat_eq
  have := x.isLt
  have := nn.isLt
  rw [fieldF_toNat, encXI_toNat]; omega

@[simp] theorem fieldX_encXI : fieldX (encXI f x nn) = x := by
  apply BitVec.eq_of_toNat_eq
  have := x.isLt
  have := nn.isLt
  rw [fieldX_toNat, encXI_toNat]; omega

@[simp] theorem fieldNN_encXI : fieldNN (encXI f x nn) = nn := by
  apply BitVec.eq_of_toNat_eq
  have := nn.isLt
  rw [fieldNN_toNat, encXI_toNat]; omega

@[simp] theorem fieldF_encXY : fieldF (encXY f x y n) = f := by
  apply BitVec.eq_of_toNat_eq
  have := x.isLt
  have := y.isLt
  have := n.isLt
  rw [fieldF_toNat, encXY_toNat]; omega

@[simp] theorem fieldX_encXY : fieldX (encXY f x y n) = x := by
  apply BitVec.eq_of_toNat_eq
  have := x.isLt
  have := y.isLt
  have := n.isLt
  rw [fieldX_toNat, encXY_toNat]; omega

@[simp] theorem fieldY_encXY : fieldY (encXY f x y n) = y := by
  apply BitVec.eq_of_toNat_eq
  have := y.isLt
  have := n.isLt
  rw [fieldY_toNat, encXY_toNat]; omega

@[simp] theorem fieldN_encXY : fieldN (encXY f x y n) = n := by
  apply BitVec.eq_of_toNat_eq
  have := n.isLt
  rw [fieldN_toNat, encXY_toNat]; omega

end Shapes

/-- A word is put together from its fields, in each shape. -/
theorem encA_fields (w : Word) : encA (fieldF w) (fieldNNN w) = w := by
  apply BitVec.eq_of_toNat_eq
  rw [encA_toNat, fieldF_toNat, fieldNNN_toNat]; omega

theorem encXI_fields (w : Word) : encXI (fieldF w) (fieldX w) (fieldNN w) = w := by
  apply BitVec.eq_of_toNat_eq
  rw [encXI_toNat, fieldF_toNat, fieldX_toNat, fieldNN_toNat]; omega

theorem encXY_fields (w : Word) : encXY (fieldF w) (fieldX w) (fieldY w) (fieldN w) = w := by
  apply BitVec.eq_of_toNat_eq
  rw [encXY_toNat, fieldF_toNat, fieldX_toNat, fieldY_toNat, fieldN_toNat]; omega

/-- A word is the concatenation of its two bytes in memory order. -/
theorem wordOfBytes_bytesOfWord (w : Word) : wordOfBytes (bytesOfWord w).1 (bytesOfWord w).2 = w := by
  apply BitVec.eq_of_toNat_eq
  have h : (wordOfBytes (bytesOfWord w).1 (bytesOfWord w).2).toNat =
      (bytesOfWord w).1.toNat * 256 + (bytesOfWord w).2.toNat := append_toNat _ _
  have h1 : (bytesOfWord w).1.toNat = w.toNat / 256 % 256 := by
    simp [bytesOfWord, BitVec.extractLsb'_toNat, Nat.shiftRight_eq_div_pow]
  have h2 : (bytesOfWord w).2.toNat = w.toNat % 256 := by
    simp [bytesOfWord, BitVec.extractLsb'_toNat]
  have := w.isLt
  rw [h, h1, h2]
  omega

/-- Every instruction is well-formed: the operand types hold the ranges of spec/30_encoding.md R84. -/
theorem instr_wellFormed (i : Instr) : i.WellFormed := by
  cases i <;> simp [Instr.WellFormed, Instr.toAsm, AsmLine.wellFormed, regOk, byteOk, addrOk] <;> omega

end Sys2Proof.Laws
end

