-- ==== Sys2Proof/Laws/Memory.lean ====
section
/-! SUPPORT. The laws of memory: reads after writes, and that every operation keeps the canonical form. -/

namespace Sys2Proof.Machine.Memory

open Sys2Proof Sys2Proof.Machine

/-- Every listed address of `m` is above `a`. -/
abbrev Above (a : Nat) (m : Memory) : Prop := ∀ c ∈ m, a < c.1

theorem lookup_of_above {a : Nat} {m : Memory} (h : Above a m) : m.lookup a = Memory.unlisted := by
  induction m with
  | nil => rfl
  | cons c m ih =>
    have hc : c.1 ≠ a := Nat.ne_of_gt (h c (by simp))
    simp only [Memory.lookup, if_neg hc]
    exact ih fun d hd => h d (by simp [hd])

theorem wf_nil : Memory.Wf [] := by simp [Memory.Wf]

theorem wf_tail {c : Host.Cell} {m : Memory} (h : Memory.Wf (c :: m)) : m.Wf :=
  ⟨(List.pairwise_cons.1 h.1).2, fun d hd => h.2 d (by simp [hd])⟩

theorem above_tail {c : Host.Cell} {m : Memory} (h : Memory.Wf (c :: m)) : Above c.1 m :=
  (List.pairwise_cons.1 h.1).1

theorem wf_cons {c : Host.Cell} {m : Memory} (ha : Above c.1 m) (h0 : c.2 ≠ Memory.unlisted)
    (hs : c.1 < Config.memSize) (hm : m.Wf) : Memory.Wf (c :: m) := by
  refine ⟨List.pairwise_cons.2 ⟨ha, hm.1⟩, fun d hd => ?_⟩
  rcases List.mem_cons.1 hd with rfl | hd
  · exact ⟨h0, hs⟩
  · exact hm.2 d hd

theorem wf_cell_append {a : Nat} {b : Byte} {m : Memory} (ha : Above a m) (hs : a < Config.memSize)
    (hm : m.Wf) : (Memory.cell a b ++ m).Wf := by
  unfold Memory.cell
  split
  · exact hm
  · exact wf_cons ha ‹_› hs hm

theorem lookup_cell_append {a x : Nat} {b : Byte} {m : Memory} (ha : Above a m) :
    (Memory.cell a b ++ m).lookup x = if x = a then b else m.lookup x := by
  unfold Memory.cell
  split <;> rename_i hb
  · subst hb
    by_cases hx : x = a
    · subst hx; simp [lookup_of_above ha]
    · simp [hx]
  · simp [Memory.lookup, eq_comm]

/-- What a write lists lies above whatever the memory and the address lie above. -/
theorem above_write {k a : Nat} {b : Byte} {m : Memory} (hm : Above k m) (hk : k < a) :
    Above k (m.write a b) := by
  have cell_above : ∀ c ∈ Memory.cell a b, k < c.1 := by
    intro c hc
    unfold Memory.cell at hc
    split at hc <;> simp_all
  induction m with
  | nil => exact cell_above
  | cons d m ih =>
    have hd : k < d.1 := hm d (by simp)
    have htl : Above k m := fun c hc => hm c (by simp [hc])
    intro c hc
    unfold Memory.write at hc
    split at hc
    · rcases List.mem_append.1 hc with h | h
      · exact cell_above c h
      · exact hm c h
    · split at hc
      · rcases List.mem_append.1 hc with h | h
        · exact cell_above c h
        · exact htl c h
      · rcases List.mem_cons.1 hc with rfl | h
        · exact hd
        · exact ih htl c h

/-- A write inside the address space keeps the canonical form. -/
theorem wf_write {m : Memory} {a : Nat} {b : Byte} (hm : m.Wf) (hs : a < Config.memSize) :
    (m.write a b).Wf := by
  induction m with
  | nil => simpa [Memory.write] using wf_cell_append (m := []) (b := b) (by simp [Above]) hs wf_nil
  | cons d m ih =>
    have hab := above_tail hm
    have hd := hm.2 d (by simp)
    unfold Memory.write
    split
    · rename_i hlt
      refine wf_cell_append (fun c hc => ?_) hs hm
      rcases List.mem_cons.1 hc with rfl | hc
      · exact hlt
      · exact Nat.lt_trans hlt (hab c hc)
    · split
      · rename_i heq
        subst heq
        exact wf_cell_append hab hs (wf_tail hm)
      · exact wf_cons (above_write hab (by omega)) hd.1 hd.2 (ih (wf_tail hm))

/-- Reading after a write: the byte written at its address, as before elsewhere. -/
theorem lookup_write {m : Memory} {a x : Nat} {b : Byte} (hm : m.Wf) :
    (m.write a b).lookup x = if x = a then b else m.lookup x := by
  induction m with
  | nil => simpa [Memory.write] using lookup_cell_append (m := []) (x := x) (b := b) (a := a) (by simp [Above])
  | cons d m ih =>
    have hab := above_tail hm
    unfold Memory.write
    split
    · rename_i hlt
      refine lookup_cell_append fun c hc => ?_
      rcases List.mem_cons.1 hc with rfl | hc
      · exact hlt
      · exact Nat.lt_trans hlt (hab c hc)
    · split
      · rename_i heq
        subst heq
        rw [lookup_cell_append hab]
        by_cases hx : x = d.1
        · simp [hx]
        · simp [Memory.lookup, hx, Ne.symm hx]
      · rename_i hne
        simp only [Memory.lookup, ih (wf_tail hm)]
        by_cases hx : d.1 = x
        · subst hx; simp [Ne.symm hne]
        · simp [hx]

/-- `read` is defined exactly inside the address space. -/
theorem read_eq (m : Memory) (a : Nat) :
    m.read a = if a < Config.memSize then some (m.lookup a) else none := rfl

/-- Reading one byte after a write inside the address space. -/
theorem read_write {m : Memory} {a x : Nat} {b : Byte} (hm : m.Wf) (hs : a < Config.memSize) :
    (m.write a b).read x = if x = a then some b else m.read x := by
  simp only [read_eq, lookup_write hm]
  by_cases hx : x = a
  · subst hx; simp [hs]
  · simp [hx]

/-- Storing a list of bytes that fits keeps the canonical form. -/
theorem wf_writeAll {m : Memory} {a : Nat} {bs : List Byte} (hm : m.Wf)
    (hs : a + bs.length ≤ Config.memSize) : (m.writeAll a bs).Wf := by
  induction bs generalizing m a with
  | nil => exact hm
  | cons b bs ih =>
    simp only [List.length_cons] at hs
    exact ih (wf_write hm (by omega)) (by omega)

/-- Reading one byte after storing a list of bytes that fits: the stored byte inside it, as before outside. -/
theorem read_writeAll {m : Memory} {a x : Nat} {bs : List Byte} (hm : m.Wf)
    (hs : a + bs.length ≤ Config.memSize) :
    (m.writeAll a bs).read x = if a ≤ x ∧ x < a + bs.length then bs[x - a]? else m.read x := by
  induction bs generalizing m a with
  | nil => simp [Memory.writeAll, Nat.not_lt.2]
  | cons b bs ih =>
    simp only [List.length_cons] at hs ⊢
    rw [Memory.writeAll, ih (wf_write hm (by omega)) (by omega), read_write hm (by omega)]
    by_cases h1 : x = a
    · subst h1; simp
    · by_cases h2 : a + 1 ≤ x ∧ x < a + 1 + bs.length
      · have : x - a = (x - (a + 1)) + 1 := by omega
        rw [if_pos h2, if_pos (by omega), this, List.getElem?_cons_succ]
      · rw [if_neg h2, if_neg h1, if_neg (by omega)]

/-- Two memories in canonical form that read alike are equal: equal memories are equal data. -/
theorem wf_ext {m n : Memory} (hm : m.Wf) (hn : n.Wf) (h : ∀ a, m.lookup a = n.lookup a) : m = n := by
  induction m generalizing n with
  | nil =>
    cases n with
    | nil => rfl
    | cons d n => exact absurd (by simpa [Memory.lookup] using (h d.1).symm) (hn.2 d (by simp)).1
  | cons c m ih =>
    have hc := (hm.2 c (by simp)).1
    have hca := above_tail hm
    cases n with
    | nil => exact absurd (by simpa [Memory.lookup] using h c.1) hc
    | cons d n =>
      have hd := (hn.2 d (by simp)).1
      have hda := above_tail hn
      have key : c.1 = d.1 := by
        rcases Nat.lt_trichotomy c.1 d.1 with hlt | heq | hlt
        · have hab : Above c.1 (d :: n) := fun e he => by
            rcases List.mem_cons.1 he with rfl | he
            · exact hlt
            · exact Nat.lt_trans hlt (hda e he)
          exact absurd (by simpa [Memory.lookup] using (h c.1).trans (lookup_of_above hab)) hc
        · exact heq
        · have hab : Above d.1 (c :: m) := fun e he => by
            rcases List.mem_cons.1 he with rfl | he
            · exact hlt
            · exact Nat.lt_trans hlt (hca e he)
          exact absurd (by simpa [Memory.lookup] using (h d.1).symm.trans (lookup_of_above hab)) hd
      have val : c.2 = d.2 := by simpa [Memory.lookup, key] using h c.1
      have tail : m = n := ih (wf_tail hm) (wf_tail hn) fun a => by
        by_cases ha : a = c.1
        · subst ha
          rw [lookup_of_above hca, lookup_of_above (key ▸ hda)]
        · have := h a
          simpa [Memory.lookup, Ne.symm ha, ← key] using this
      rw [tail, Prod.ext key val]

/-- The Boolean form of the predicate. -/
theorem wf_eq_true (m : Memory) : m.wf = true ↔ m.Wf := by simp [Memory.wf]

/-- `MemRead(a, n)` gives `n` bytes. -/
theorem length_of_readBytes {m : Memory} {a n : Nat} {bs : List Byte} (h : m.readBytes a n = some bs) :
    bs.length = n := by
  induction n generalizing a bs with
  | zero => simp_all [Memory.readBytes]
  | succ n ih =>
    simp only [Memory.readBytes] at h
    split at h
    · rename_i b bs' _ hbs
      obtain rfl := Option.some.inj h
      simp [ih hbs]
    · cases h

end Sys2Proof.Machine.Memory
end

