-- ==== Sys2Proof/Laws/State.lean ====
section
/-! SUPPORT. One lemma per field per update of State, and reads after register, key and flag writes. -/

namespace Sys2Proof.Machine.State

open Sys2Proof Sys2Proof.Machine

/-! ### `setV` -/

@[simp] theorem setV_regs (s : State) (r : RegIdx) (b : Byte) : (s.setV r b).regs = s.regs.set r.toNat b r.isLt := rfl
@[simp] theorem setV_pc (s : State) (r : RegIdx) (b : Byte) : (s.setV r b).pc = s.pc := rfl
@[simp] theorem setV_index (s : State) (r : RegIdx) (b : Byte) : (s.setV r b).index = s.index := rfl
@[simp] theorem setV_stack (s : State) (r : RegIdx) (b : Byte) : (s.setV r b).stack = s.stack := rfl
@[simp] theorem setV_sp (s : State) (r : RegIdx) (b : Byte) : (s.setV r b).sp = s.sp := rfl
@[simp] theorem setV_dt (s : State) (r : RegIdx) (b : Byte) : (s.setV r b).dt = s.dt := rfl
@[simp] theorem setV_st (s : State) (r : RegIdx) (b : Byte) : (s.setV r b).st = s.st := rfl
@[simp] theorem setV_keys (s : State) (r : RegIdx) (b : Byte) : (s.setV r b).keys = s.keys := rfl
@[simp] theorem setV_lastKey (s : State) (r : RegIdx) (b : Byte) : (s.setV r b).lastKey = s.lastKey := rfl
@[simp] theorem setV_stopped (s : State) (r : RegIdx) (b : Byte) : (s.setV r b).stopped = s.stopped := rfl
@[simp] theorem setV_mem (s : State) (r : RegIdx) (b : Byte) : (s.setV r b).mem = s.mem := rfl
@[simp] theorem setV_status (s : State) (r : RegIdx) (b : Byte) : (s.setV r b).status = s.status := rfl
@[simp] theorem setV_latch (s : State) (r : RegIdx) (b : Byte) : (s.setV r b).latch = s.latch := rfl
@[simp] theorem setV_params (s : State) (r : RegIdx) (b : Byte) : (s.setV r b).params = s.params := rfl
@[simp] theorem setV_draws (s : State) (r : RegIdx) (b : Byte) : (s.setV r b).draws = s.draws := rfl
@[simp] theorem setV_reports (s : State) (r : RegIdx) (b : Byte) : (s.setV r b).reports = s.reports := rfl
@[simp] theorem setV_started (s : State) (r : RegIdx) (b : Byte) : (s.setV r b).started = s.started := rfl
@[simp] theorem setV_key (s : State) (r : RegIdx) (b : Byte) (j : KeyIdx) : (s.setV r b).key j = s.key j := rfl
@[simp] theorem setV_pickKey (s : State) (r : RegIdx) (b : Byte) : (s.setV r b).pickKey = s.pickKey := rfl

/-! ### `setKey` -/

@[simp] theorem setKey_regs (s : State) (k : KeyIdx) (p : Bool) : (s.setKey k p).regs = s.regs := rfl
@[simp] theorem setKey_pc (s : State) (k : KeyIdx) (p : Bool) : (s.setKey k p).pc = s.pc := rfl
@[simp] theorem setKey_index (s : State) (k : KeyIdx) (p : Bool) : (s.setKey k p).index = s.index := rfl
@[simp] theorem setKey_stack (s : State) (k : KeyIdx) (p : Bool) : (s.setKey k p).stack = s.stack := rfl
@[simp] theorem setKey_sp (s : State) (k : KeyIdx) (p : Bool) : (s.setKey k p).sp = s.sp := rfl
@[simp] theorem setKey_dt (s : State) (k : KeyIdx) (p : Bool) : (s.setKey k p).dt = s.dt := rfl
@[simp] theorem setKey_st (s : State) (k : KeyIdx) (p : Bool) : (s.setKey k p).st = s.st := rfl
@[simp] theorem setKey_keys (s : State) (k : KeyIdx) (p : Bool) : (s.setKey k p).keys = s.keys.set k.toNat p k.isLt := rfl
@[simp] theorem setKey_lastKey (s : State) (k : KeyIdx) (p : Bool) : (s.setKey k p).lastKey = s.lastKey := rfl
@[simp] theorem setKey_stopped (s : State) (k : KeyIdx) (p : Bool) : (s.setKey k p).stopped = s.stopped := rfl
@[simp] theorem setKey_mem (s : State) (k : KeyIdx) (p : Bool) : (s.setKey k p).mem = s.mem := rfl
@[simp] theorem setKey_status (s : State) (k : KeyIdx) (p : Bool) : (s.setKey k p).status = s.status := rfl
@[simp] theorem setKey_latch (s : State) (k : KeyIdx) (p : Bool) : (s.setKey k p).latch = s.latch := rfl
@[simp] theorem setKey_params (s : State) (k : KeyIdx) (p : Bool) : (s.setKey k p).params = s.params := rfl
@[simp] theorem setKey_draws (s : State) (k : KeyIdx) (p : Bool) : (s.setKey k p).draws = s.draws := rfl
@[simp] theorem setKey_reports (s : State) (k : KeyIdx) (p : Bool) : (s.setKey k p).reports = s.reports := rfl
@[simp] theorem setKey_started (s : State) (k : KeyIdx) (p : Bool) : (s.setKey k p).started = s.started := rfl
@[simp] theorem setKey_v (s : State) (k : KeyIdx) (p : Bool) (q : RegIdx) : (s.setKey k p).v q = s.v q := rfl

/-! ### `jump` -/

@[simp] theorem jump_regs (s : State) (a : Word) : (s.jump a).regs = s.regs := rfl
@[simp] theorem jump_pc (s : State) (a : Word) : (s.jump a).pc = a := rfl
@[simp] theorem jump_index (s : State) (a : Word) : (s.jump a).index = s.index := rfl
@[simp] theorem jump_stack (s : State) (a : Word) : (s.jump a).stack = s.stack := rfl
@[simp] theorem jump_sp (s : State) (a : Word) : (s.jump a).sp = s.sp := rfl
@[simp] theorem jump_dt (s : State) (a : Word) : (s.jump a).dt = s.dt := rfl
@[simp] theorem jump_st (s : State) (a : Word) : (s.jump a).st = s.st := rfl
@[simp] theorem jump_keys (s : State) (a : Word) : (s.jump a).keys = s.keys := rfl
@[simp] theorem jump_lastKey (s : State) (a : Word) : (s.jump a).lastKey = s.lastKey := rfl
@[simp] theorem jump_stopped (s : State) (a : Word) : (s.jump a).stopped = s.stopped := rfl
@[simp] theorem jump_mem (s : State) (a : Word) : (s.jump a).mem = s.mem := rfl
@[simp] theorem jump_status (s : State) (a : Word) : (s.jump a).status = s.status := rfl
@[simp] theorem jump_latch (s : State) (a : Word) : (s.jump a).latch = s.latch := rfl
@[simp] theorem jump_params (s : State) (a : Word) : (s.jump a).params = s.params := rfl
@[simp] theorem jump_draws (s : State) (a : Word) : (s.jump a).draws = s.draws := rfl
@[simp] theorem jump_reports (s : State) (a : Word) : (s.jump a).reports = s.reports := rfl
@[simp] theorem jump_started (s : State) (a : Word) : (s.jump a).started = s.started := rfl
@[simp] theorem jump_v (s : State) (a : Word) (q : RegIdx) : (s.jump a).v q = s.v q := rfl
@[simp] theorem jump_key (s : State) (a : Word) (j : KeyIdx) : (s.jump a).key j = s.key j := rfl
@[simp] theorem jump_pickKey (s : State) (a : Word) : (s.jump a).pickKey = s.pickKey := rfl

/-! ### `skip` -/

@[simp] theorem skip_regs (s : State) : (s.skip).regs = s.regs := rfl
@[simp] theorem skip_pc (s : State) : (s.skip).pc = s.pc + 2 := rfl
@[simp] theorem skip_index (s : State) : (s.skip).index = s.index := rfl
@[simp] theorem skip_stack (s : State) : (s.skip).stack = s.stack := rfl
@[simp] theorem skip_sp (s : State) : (s.skip).sp = s.sp := rfl
@[simp] theorem skip_dt (s : State) : (s.skip).dt = s.dt := rfl
@[simp] theorem skip_st (s : State) : (s.skip).st = s.st := rfl
@[simp] theorem skip_keys (s : State) : (s.skip).keys = s.keys := rfl
@[simp] theorem skip_lastKey (s : State) : (s.skip).lastKey = s.lastKey := rfl
@[simp] theorem skip_stopped (s : State) : (s.skip).stopped = s.stopped := rfl
@[simp] theorem skip_mem (s : State) : (s.skip).mem = s.mem := rfl
@[simp] theorem skip_status (s : State) : (s.skip).status = s.status := rfl
@[simp] theorem skip_latch (s : State) : (s.skip).latch = s.latch := rfl
@[simp] theorem skip_params (s : State) : (s.skip).params = s.params := rfl
@[simp] theorem skip_draws (s : State) : (s.skip).draws = s.draws := rfl
@[simp] theorem skip_reports (s : State) : (s.skip).reports = s.reports := rfl
@[simp] theorem skip_started (s : State) : (s.skip).started = s.started := rfl
@[simp] theorem skip_v (s : State) (q : RegIdx) : (s.skip).v q = s.v q := rfl
@[simp] theorem skip_key (s : State) (j : KeyIdx) : (s.skip).key j = s.key j := rfl
@[simp] theorem skip_pickKey (s : State) : (s.skip).pickKey = s.pickKey := rfl

/-! ### `raiseAt` -/

@[simp] theorem raiseAt_regs (s : State) (c : Cause) (a w : Word) : (s.raiseAt c a w).regs = s.regs := rfl
@[simp] theorem raiseAt_pc (s : State) (c : Cause) (a w : Word) : (s.raiseAt c a w).pc = s.pc := rfl
@[simp] theorem raiseAt_index (s : State) (c : Cause) (a w : Word) : (s.raiseAt c a w).index = s.index := rfl
@[simp] theorem raiseAt_stack (s : State) (c : Cause) (a w : Word) : (s.raiseAt c a w).stack = s.stack := rfl
@[simp] theorem raiseAt_sp (s : State) (c : Cause) (a w : Word) : (s.raiseAt c a w).sp = s.sp := rfl
@[simp] theorem raiseAt_dt (s : State) (c : Cause) (a w : Word) : (s.raiseAt c a w).dt = s.dt := rfl
@[simp] theorem raiseAt_st (s : State) (c : Cause) (a w : Word) : (s.raiseAt c a w).st = s.st := rfl
@[simp] theorem raiseAt_keys (s : State) (c : Cause) (a w : Word) : (s.raiseAt c a w).keys = s.keys := rfl
@[simp] theorem raiseAt_lastKey (s : State) (c : Cause) (a w : Word) : (s.raiseAt c a w).lastKey = s.lastKey := rfl
@[simp] theorem raiseAt_stopped (s : State) (c : Cause) (a w : Word) : (s.raiseAt c a w).stopped = s.stopped := rfl
@[simp] theorem raiseAt_mem (s : State) (c : Cause) (a w : Word) : (s.raiseAt c a w).mem = s.mem := rfl
@[simp] theorem raiseAt_status (s : State) (c : Cause) (a w : Word) : (s.raiseAt c a w).status = .faulted ⟨c, a, w⟩ := rfl
@[simp] theorem raiseAt_latch (s : State) (c : Cause) (a w : Word) : (s.raiseAt c a w).latch = s.latch := rfl
@[simp] theorem raiseAt_params (s : State) (c : Cause) (a w : Word) : (s.raiseAt c a w).params = s.params := rfl
@[simp] theorem raiseAt_draws (s : State) (c : Cause) (a w : Word) : (s.raiseAt c a w).draws = s.draws := rfl
@[simp] theorem raiseAt_reports (s : State) (c : Cause) (a w : Word) : (s.raiseAt c a w).reports = s.reports := rfl
@[simp] theorem raiseAt_started (s : State) (c : Cause) (a w : Word) : (s.raiseAt c a w).started = s.started := rfl
@[simp] theorem raiseAt_v (s : State) (c : Cause) (a w : Word) (q : RegIdx) : (s.raiseAt c a w).v q = s.v q := rfl
@[simp] theorem raiseAt_key (s : State) (c : Cause) (a w : Word) (j : KeyIdx) : (s.raiseAt c a w).key j = s.key j := rfl
@[simp] theorem raiseAt_pickKey (s : State) (c : Cause) (a w : Word) : (s.raiseAt c a w).pickKey = s.pickKey := rfl

/-! ### `raise` -/

@[simp] theorem raise_regs (s : State) (c : Cause) : (s.raise c).regs = s.regs := rfl
@[simp] theorem raise_pc (s : State) (c : Cause) : (s.raise c).pc = s.pc := rfl
@[simp] theorem raise_index (s : State) (c : Cause) : (s.raise c).index = s.index := rfl
@[simp] theorem raise_stack (s : State) (c : Cause) : (s.raise c).stack = s.stack := rfl
@[simp] theorem raise_sp (s : State) (c : Cause) : (s.raise c).sp = s.sp := rfl
@[simp] theorem raise_dt (s : State) (c : Cause) : (s.raise c).dt = s.dt := rfl
@[simp] theorem raise_st (s : State) (c : Cause) : (s.raise c).st = s.st := rfl
@[simp] theorem raise_keys (s : State) (c : Cause) : (s.raise c).keys = s.keys := rfl
@[simp] theorem raise_lastKey (s : State) (c : Cause) : (s.raise c).lastKey = s.lastKey := rfl
@[simp] theorem raise_stopped (s : State) (c : Cause) : (s.raise c).stopped = s.stopped := rfl
@[simp] theorem raise_mem (s : State) (c : Cause) : (s.raise c).mem = s.mem := rfl
@[simp] theorem raise_status (s : State) (c : Cause) : (s.raise c).status = .faulted ⟨c, s.latch.addr, s.latch.word⟩ := rfl
@[simp] theorem raise_latch (s : State) (c : Cause) : (s.raise c).latch = s.latch := rfl
@[simp] theorem raise_params (s : State) (c : Cause) : (s.raise c).params = s.params := rfl
@[simp] theorem raise_draws (s : State) (c : Cause) : (s.raise c).draws = s.draws := rfl
@[simp] theorem raise_reports (s : State) (c : Cause) : (s.raise c).reports = s.reports := rfl
@[simp] theorem raise_started (s : State) (c : Cause) : (s.raise c).started = s.started := rfl
@[simp] theorem raise_v (s : State) (c : Cause) (q : RegIdx) : (s.raise c).v q = s.v q := rfl
@[simp] theorem raise_key (s : State) (c : Cause) (j : KeyIdx) : (s.raise c).key j = s.key j := rfl
@[simp] theorem raise_pickKey (s : State) (c : Cause) : (s.raise c).pickKey = s.pickKey := rfl

/-! ### `advance` -/

@[simp] theorem advance_regs (s : State) (w : Word) : (s.advance w).regs = s.regs := rfl
@[simp] theorem advance_pc (s : State) (w : Word) : (s.advance w).pc = s.pc + 2 := rfl
@[simp] theorem advance_index (s : State) (w : Word) : (s.advance w).index = s.index := rfl
@[simp] theorem advance_stack (s : State) (w : Word) : (s.advance w).stack = s.stack := rfl
@[simp] theorem advance_sp (s : State) (w : Word) : (s.advance w).sp = s.sp := rfl
@[simp] theorem advance_dt (s : State) (w : Word) : (s.advance w).dt = s.dt := rfl
@[simp] theorem advance_st (s : State) (w : Word) : (s.advance w).st = s.st := rfl
@[simp] theorem advance_keys (s : State) (w : Word) : (s.advance w).keys = s.keys := rfl
@[simp] theorem advance_lastKey (s : State) (w : Word) : (s.advance w).lastKey = s.lastKey := rfl
@[simp] theorem advance_stopped (s : State) (w : Word) : (s.advance w).stopped = s.stopped := rfl
@[simp] theorem advance_mem (s : State) (w : Word) : (s.advance w).mem = s.mem := rfl
@[simp] theorem advance_status (s : State) (w : Word) : (s.advance w).status = s.status := rfl
@[simp] theorem advance_latch (s : State) (w : Word) : (s.advance w).latch = ⟨s.pc, w⟩ := rfl
@[simp] theorem advance_params (s : State) (w : Word) : (s.advance w).params = s.params := rfl
@[simp] theorem advance_draws (s : State) (w : Word) : (s.advance w).draws = s.draws := rfl
@[simp] theorem advance_reports (s : State) (w : Word) : (s.advance w).reports = s.reports := rfl
@[simp] theorem advance_started (s : State) (w : Word) : (s.advance w).started = true := rfl
@[simp] theorem advance_v (s : State) (w : Word) (q : RegIdx) : (s.advance w).v q = s.v q := rfl
@[simp] theorem advance_key (s : State) (w : Word) (j : KeyIdx) : (s.advance w).key j = s.key j := rfl
@[simp] theorem advance_pickKey (s : State) (w : Word) : (s.advance w).pickKey = s.pickKey := rfl

/-! ### `fetchFault` -/

@[simp] theorem fetchFault_regs (s : State) : (s.fetchFault).regs = s.regs := rfl
@[simp] theorem fetchFault_pc (s : State) : (s.fetchFault).pc = s.pc := rfl
@[simp] theorem fetchFault_index (s : State) : (s.fetchFault).index = s.index := rfl
@[simp] theorem fetchFault_stack (s : State) : (s.fetchFault).stack = s.stack := rfl
@[simp] theorem fetchFault_sp (s : State) : (s.fetchFault).sp = s.sp := rfl
@[simp] theorem fetchFault_dt (s : State) : (s.fetchFault).dt = s.dt := rfl
@[simp] theorem fetchFault_st (s : State) : (s.fetchFault).st = s.st := rfl
@[simp] theorem fetchFault_keys (s : State) : (s.fetchFault).keys = s.keys := rfl
@[simp] theorem fetchFault_lastKey (s : State) : (s.fetchFault).lastKey = s.lastKey := rfl
@[simp] theorem fetchFault_stopped (s : State) : (s.fetchFault).stopped = s.stopped := rfl
@[simp] theorem fetchFault_mem (s : State) : (s.fetchFault).mem = s.mem := rfl
@[simp] theorem fetchFault_status (s : State) : (s.fetchFault).status = .faulted ⟨.fetchOutOfRange, s.pc, 0⟩ := rfl
@[simp] theorem fetchFault_latch (s : State) : (s.fetchFault).latch = s.latch := rfl
@[simp] theorem fetchFault_params (s : State) : (s.fetchFault).params = s.params := rfl
@[simp] theorem fetchFault_draws (s : State) : (s.fetchFault).draws = s.draws := rfl
@[simp] theorem fetchFault_reports (s : State) : (s.fetchFault).reports = s.reports := rfl
@[simp] theorem fetchFault_started (s : State) : (s.fetchFault).started = s.started := rfl
@[simp] theorem fetchFault_v (s : State) (q : RegIdx) : (s.fetchFault).v q = s.v q := rfl
@[simp] theorem fetchFault_key (s : State) (j : KeyIdx) : (s.fetchFault).key j = s.key j := rfl
@[simp] theorem fetchFault_pickKey (s : State) : (s.fetchFault).pickKey = s.pickKey := rfl

/-! ### `completeWait` -/

@[simp] theorem completeWait_regs (s : State) (x : RegIdx) (k : KeyIdx) : (s.completeWait x k).regs = s.regs.set x.toNat (byteOfKey k) x.isLt := rfl
@[simp] theorem completeWait_pc (s : State) (x : RegIdx) (k : KeyIdx) : (s.completeWait x k).pc = s.pc := rfl
@[simp] theorem completeWait_index (s : State) (x : RegIdx) (k : KeyIdx) : (s.completeWait x k).index = s.index := rfl
@[simp] theorem completeWait_stack (s : State) (x : RegIdx) (k : KeyIdx) : (s.completeWait x k).stack = s.stack := rfl
@[simp] theorem completeWait_sp (s : State) (x : RegIdx) (k : KeyIdx) : (s.completeWait x k).sp = s.sp := rfl
@[simp] theorem completeWait_dt (s : State) (x : RegIdx) (k : KeyIdx) : (s.completeWait x k).dt = s.dt := rfl
@[simp] theorem completeWait_st (s : State) (x : RegIdx) (k : KeyIdx) : (s.completeWait x k).st = s.st := rfl
@[simp] theorem completeWait_keys (s : State) (x : RegIdx) (k : KeyIdx) : (s.completeWait x k).keys = s.keys := rfl
@[simp] theorem completeWait_lastKey (s : State) (x : RegIdx) (k : KeyIdx) : (s.completeWait x k).lastKey = s.lastKey := rfl
@[simp] theorem completeWait_stopped (s : State) (x : RegIdx) (k : KeyIdx) : (s.completeWait x k).stopped = s.stopped := rfl
@[simp] theorem completeWait_mem (s : State) (x : RegIdx) (k : KeyIdx) : (s.completeWait x k).mem = s.mem := rfl
@[simp] theorem completeWait_status (s : State) (x : RegIdx) (k : KeyIdx) : (s.completeWait x k).status = .run := rfl
@[simp] theorem completeWait_latch (s : State) (x : RegIdx) (k : KeyIdx) : (s.completeWait x k).latch = s.latch := rfl
@[simp] theorem completeWait_params (s : State) (x : RegIdx) (k : KeyIdx) : (s.completeWait x k).params = s.params := rfl
@[simp] theorem completeWait_draws (s : State) (x : RegIdx) (k : KeyIdx) : (s.completeWait x k).draws = s.draws := rfl
@[simp] theorem completeWait_reports (s : State) (x : RegIdx) (k : KeyIdx) : (s.completeWait x k).reports = s.reports := rfl
@[simp] theorem completeWait_started (s : State) (x : RegIdx) (k : KeyIdx) : (s.completeWait x k).started = s.started := rfl
@[simp] theorem completeWait_key (s : State) (x : RegIdx) (k : KeyIdx) (j : KeyIdx) : (s.completeWait x k).key j = s.key j := rfl
@[simp] theorem completeWait_pickKey (s : State) (x : RegIdx) (k : KeyIdx) : (s.completeWait x k).pickKey = s.pickKey := rfl

/-! ### `report` -/

@[simp] theorem report_regs (s : State) (c : Cause) : (s.report c).regs = s.regs := rfl
@[simp] theorem report_pc (s : State) (c : Cause) : (s.report c).pc = s.pc := rfl
@[simp] theorem report_index (s : State) (c : Cause) : (s.report c).index = s.index := rfl
@[simp] theorem report_stack (s : State) (c : Cause) : (s.report c).stack = s.stack := rfl
@[simp] theorem report_sp (s : State) (c : Cause) : (s.report c).sp = s.sp := rfl
@[simp] theorem report_dt (s : State) (c : Cause) : (s.report c).dt = s.dt := rfl
@[simp] theorem report_st (s : State) (c : Cause) : (s.report c).st = s.st := rfl
@[simp] theorem report_keys (s : State) (c : Cause) : (s.report c).keys = s.keys := rfl
@[simp] theorem report_lastKey (s : State) (c : Cause) : (s.report c).lastKey = s.lastKey := rfl
@[simp] theorem report_stopped (s : State) (c : Cause) : (s.report c).stopped = s.stopped := rfl
@[simp] theorem report_mem (s : State) (c : Cause) : (s.report c).mem = s.mem := rfl
@[simp] theorem report_status (s : State) (c : Cause) : (s.report c).status = s.status := rfl
@[simp] theorem report_latch (s : State) (c : Cause) : (s.report c).latch = s.latch := rfl
@[simp] theorem report_params (s : State) (c : Cause) : (s.report c).params = s.params := rfl
@[simp] theorem report_draws (s : State) (c : Cause) : (s.report c).draws = s.draws := rfl
@[simp] theorem report_reports (s : State) (c : Cause) : (s.report c).reports = s.reports ++ [⟨c, s.latch.addr, s.latch.word⟩] := rfl
@[simp] theorem report_started (s : State) (c : Cause) : (s.report c).started = s.started := rfl
@[simp] theorem report_v (s : State) (c : Cause) (q : RegIdx) : (s.report c).v q = s.v q := rfl
@[simp] theorem report_key (s : State) (c : Cause) (j : KeyIdx) : (s.report c).key j = s.key j := rfl
@[simp] theorem report_pickKey (s : State) (c : Cause) : (s.report c).pickKey = s.pickKey := rfl

/-! ### `placeWord` -/

@[simp] theorem placeWord_regs (s : State) (w : Word) : (s.placeWord w).regs = s.regs := rfl
@[simp] theorem placeWord_pc (s : State) (w : Word) : (s.placeWord w).pc = s.pc := rfl
@[simp] theorem placeWord_index (s : State) (w : Word) : (s.placeWord w).index = s.index := rfl
@[simp] theorem placeWord_stack (s : State) (w : Word) : (s.placeWord w).stack = s.stack := rfl
@[simp] theorem placeWord_sp (s : State) (w : Word) : (s.placeWord w).sp = s.sp := rfl
@[simp] theorem placeWord_dt (s : State) (w : Word) : (s.placeWord w).dt = s.dt := rfl
@[simp] theorem placeWord_st (s : State) (w : Word) : (s.placeWord w).st = s.st := rfl
@[simp] theorem placeWord_keys (s : State) (w : Word) : (s.placeWord w).keys = s.keys := rfl
@[simp] theorem placeWord_lastKey (s : State) (w : Word) : (s.placeWord w).lastKey = s.lastKey := rfl
@[simp] theorem placeWord_stopped (s : State) (w : Word) : (s.placeWord w).stopped = s.stopped := rfl
@[simp] theorem placeWord_mem (s : State) (w : Word) : (s.placeWord w).mem = s.mem.writeAll s.pc.toNat [(bytesOfWord w).1, (bytesOfWord w).2] := rfl
@[simp] theorem placeWord_status (s : State) (w : Word) : (s.placeWord w).status = s.status := rfl
@[simp] theorem placeWord_latch (s : State) (w : Word) : (s.placeWord w).latch = s.latch := rfl
@[simp] theorem placeWord_params (s : State) (w : Word) : (s.placeWord w).params = s.params := rfl
@[simp] theorem placeWord_draws (s : State) (w : Word) : (s.placeWord w).draws = s.draws := rfl
@[simp] theorem placeWord_reports (s : State) (w : Word) : (s.placeWord w).reports = s.reports := rfl
@[simp] theorem placeWord_started (s : State) (w : Word) : (s.placeWord w).started = s.started := rfl
@[simp] theorem placeWord_v (s : State) (w : Word) (q : RegIdx) : (s.placeWord w).v q = s.v q := rfl
@[simp] theorem placeWord_key (s : State) (w : Word) (j : KeyIdx) : (s.placeWord w).key j = s.key j := rfl
@[simp] theorem placeWord_pickKey (s : State) (w : Word) : (s.placeWord w).pickKey = s.pickKey := rfl

/-! ### `timerTick` -/

@[simp] theorem timerTick_regs (s : State) : (s.timerTick).regs = s.regs := rfl
@[simp] theorem timerTick_pc (s : State) : (s.timerTick).pc = s.pc := rfl
@[simp] theorem timerTick_index (s : State) : (s.timerTick).index = s.index := rfl
@[simp] theorem timerTick_stack (s : State) : (s.timerTick).stack = s.stack := rfl
@[simp] theorem timerTick_sp (s : State) : (s.timerTick).sp = s.sp := rfl
@[simp] theorem timerTick_dt (s : State) : (s.timerTick).dt = countDown s.dt := rfl
@[simp] theorem timerTick_st (s : State) : (s.timerTick).st = countDown s.st := rfl
@[simp] theorem timerTick_keys (s : State) : (s.timerTick).keys = s.keys := rfl
@[simp] theorem timerTick_lastKey (s : State) : (s.timerTick).lastKey = s.lastKey := rfl
@[simp] theorem timerTick_stopped (s : State) : (s.timerTick).stopped = s.stopped := rfl
@[simp] theorem timerTick_mem (s : State) : (s.timerTick).mem = s.mem := rfl
@[simp] theorem timerTick_status (s : State) : (s.timerTick).status = s.status := rfl
@[simp] theorem timerTick_latch (s : State) : (s.timerTick).latch = s.latch := rfl
@[simp] theorem timerTick_params (s : State) : (s.timerTick).params = s.params := rfl
@[simp] theorem timerTick_draws (s : State) : (s.timerTick).draws = s.draws := rfl
@[simp] theorem timerTick_reports (s : State) : (s.timerTick).reports = s.reports := rfl
@[simp] theorem timerTick_started (s : State) : (s.timerTick).started = s.started := rfl
@[simp] theorem timerTick_v (s : State) (q : RegIdx) : (s.timerTick).v q = s.v q := rfl
@[simp] theorem timerTick_key (s : State) (j : KeyIdx) : (s.timerTick).key j = s.key j := rfl
@[simp] theorem timerTick_pickKey (s : State) : (s.timerTick).pickKey = s.pickKey := rfl

/-! ### `skipIf` -/

@[simp] theorem skipIf_pc (s : State) (c : Bool) : (s.skipIf c).pc = if c then s.pc + 2 else s.pc := by
  cases c <;> rfl
@[simp] theorem skipIf_regs (s : State) (c : Bool) : (s.skipIf c).regs = s.regs := by cases c <;> rfl
@[simp] theorem skipIf_index (s : State) (c : Bool) : (s.skipIf c).index = s.index := by cases c <;> rfl
@[simp] theorem skipIf_stack (s : State) (c : Bool) : (s.skipIf c).stack = s.stack := by cases c <;> rfl
@[simp] theorem skipIf_sp (s : State) (c : Bool) : (s.skipIf c).sp = s.sp := by cases c <;> rfl
@[simp] theorem skipIf_dt (s : State) (c : Bool) : (s.skipIf c).dt = s.dt := by cases c <;> rfl
@[simp] theorem skipIf_st (s : State) (c : Bool) : (s.skipIf c).st = s.st := by cases c <;> rfl
@[simp] theorem skipIf_keys (s : State) (c : Bool) : (s.skipIf c).keys = s.keys := by cases c <;> rfl
@[simp] theorem skipIf_lastKey (s : State) (c : Bool) : (s.skipIf c).lastKey = s.lastKey := by cases c <;> rfl
@[simp] theorem skipIf_stopped (s : State) (c : Bool) : (s.skipIf c).stopped = s.stopped := by cases c <;> rfl
@[simp] theorem skipIf_mem (s : State) (c : Bool) : (s.skipIf c).mem = s.mem := by cases c <;> rfl
@[simp] theorem skipIf_status (s : State) (c : Bool) : (s.skipIf c).status = s.status := by cases c <;> rfl
@[simp] theorem skipIf_latch (s : State) (c : Bool) : (s.skipIf c).latch = s.latch := by cases c <;> rfl
@[simp] theorem skipIf_params (s : State) (c : Bool) : (s.skipIf c).params = s.params := by cases c <;> rfl
@[simp] theorem skipIf_draws (s : State) (c : Bool) : (s.skipIf c).draws = s.draws := by cases c <;> rfl
@[simp] theorem skipIf_reports (s : State) (c : Bool) : (s.skipIf c).reports = s.reports := by cases c <;> rfl
@[simp] theorem skipIf_started (s : State) (c : Bool) : (s.skipIf c).started = s.started := by cases c <;> rfl
@[simp] theorem skipIf_v (s : State) (c : Bool) (q : RegIdx) : (s.skipIf c).v q = s.v q := by cases c <;> rfl
@[simp] theorem skipIf_key (s : State) (c : Bool) (j : KeyIdx) : (s.skipIf c).key j = s.key j := by cases c <;> rfl

/-! ### `writeFlagged` -/

@[simp] theorem writeFlagged_pc (s : State) (x : RegIdx) (b : Byte) (c : Bool) :
    (writeFlagged s x b c).pc = s.pc := rfl
@[simp] theorem writeFlagged_index (s : State) (x : RegIdx) (b : Byte) (c : Bool) :
    (writeFlagged s x b c).index = s.index := rfl
@[simp] theorem writeFlagged_stack (s : State) (x : RegIdx) (b : Byte) (c : Bool) :
    (writeFlagged s x b c).stack = s.stack := rfl
@[simp] theorem writeFlagged_sp (s : State) (x : RegIdx) (b : Byte) (c : Bool) :
    (writeFlagged s x b c).sp = s.sp := rfl
@[simp] theorem writeFlagged_dt (s : State) (x : RegIdx) (b : Byte) (c : Bool) :
    (writeFlagged s x b c).dt = s.dt := rfl
@[simp] theorem writeFlagged_st (s : State) (x : RegIdx) (b : Byte) (c : Bool) :
    (writeFlagged s x b c).st = s.st := rfl
@[simp] theorem writeFlagged_keys (s : State) (x : RegIdx) (b : Byte) (c : Bool) :
    (writeFlagged s x b c).keys = s.keys := rfl
@[simp] theorem writeFlagged_lastKey (s : State) (x : RegIdx) (b : Byte) (c : Bool) :
    (writeFlagged s x b c).lastKey = s.lastKey := rfl
@[simp] theorem writeFlagged_stopped (s : State) (x : RegIdx) (b : Byte) (c : Bool) :
    (writeFlagged s x b c).stopped = s.stopped := rfl
@[simp] theorem writeFlagged_mem (s : State) (x : RegIdx) (b : Byte) (c : Bool) :
    (writeFlagged s x b c).mem = s.mem := rfl
@[simp] theorem writeFlagged_status (s : State) (x : RegIdx) (b : Byte) (c : Bool) :
    (writeFlagged s x b c).status = s.status := rfl
@[simp] theorem writeFlagged_latch (s : State) (x : RegIdx) (b : Byte) (c : Bool) :
    (writeFlagged s x b c).latch = s.latch := rfl
@[simp] theorem writeFlagged_params (s : State) (x : RegIdx) (b : Byte) (c : Bool) :
    (writeFlagged s x b c).params = s.params := rfl
@[simp] theorem writeFlagged_draws (s : State) (x : RegIdx) (b : Byte) (c : Bool) :
    (writeFlagged s x b c).draws = s.draws := rfl
@[simp] theorem writeFlagged_reports (s : State) (x : RegIdx) (b : Byte) (c : Bool) :
    (writeFlagged s x b c).reports = s.reports := rfl
@[simp] theorem writeFlagged_started (s : State) (x : RegIdx) (b : Byte) (c : Bool) :
    (writeFlagged s x b c).started = s.started := rfl
@[simp] theorem writeFlagged_key (s : State) (x : RegIdx) (b : Byte) (c : Bool) (j : KeyIdx) :
    (writeFlagged s x b c).key j = s.key j := rfl

/-! ### Reads after writes -/

/-- Reading a register after writing one. -/
@[simp] theorem setV_v (s : State) (r : RegIdx) (b : Byte) (q : RegIdx) :
    (s.setV r b).v q = if q = r then b else s.v q := by
  by_cases h : q = r
  · subst h; simp [State.setV, State.v]
  · have hn : r.toNat ≠ q.toNat := fun e => h (BitVec.eq_of_toNat_eq e.symm)
    simp [State.setV, State.v, Vector.getElem_set_ne, hn, h]

/-- Reading a key after writing one. -/
@[simp] theorem setKey_key (s : State) (k : KeyIdx) (p : Bool) (j : KeyIdx) :
    (s.setKey k p).key j = if j = k then p else s.key j := by
  by_cases h : j = k
  · subst h; simp [State.setKey, State.key]
  · have hn : k.toNat ≠ j.toNat := fun e => h (BitVec.eq_of_toNat_eq e.symm)
    simp [State.setKey, State.key, Vector.getElem_set_ne, hn, h]

/-- A flagged write leaves the flag in VF, the result in VX where X is not 15, and no other register changed. -/
@[simp] theorem writeFlagged_v (s : State) (x : RegIdx) (b : Byte) (c : Bool) (q : RegIdx) :
    (writeFlagged s x b c).v q = if q = vf then flagByte c else if q = x then b else s.v q := by
  simp [writeFlagged]

/-- Completing a wait writes the key's index to VX and no other register. -/
@[simp] theorem completeWait_v (s : State) (x : RegIdx) (k : KeyIdx) (q : RegIdx) :
    (s.completeWait x k).v q = if q = x then byteOfKey k else s.v q :=
  setV_v s x (byteOfKey k) q

/-- Two states with the same registers, read one by one, have the same register file. -/
theorem regs_ext {s t : State} (h : ∀ r, t.v r = s.v r) : t.regs = s.regs := by
  apply Vector.ext
  intro i hi
  simpa [State.v, Nat.mod_eq_of_lt hi] using h (BitVec.ofNat 4 i)

/-- The same for the key bitmap. -/
theorem keys_ext {s t : State} (h : ∀ k, t.key k = s.key k) : t.keys = s.keys := by
  apply Vector.ext
  intro i hi
  simpa [State.key, Nat.mod_eq_of_lt hi] using h (BitVec.ofNat 4 i)

end Sys2Proof.Machine.State
end

