-- ==== Sys2Proof/Laws/Ops.lean ====
section
/-! SUPPORT. One lemma per shared operation that says everything it can do: register reads, key choice, push and pop, key
tests, byte arithmetic, fetch, whose turn it is, and the environment's load. -/

namespace Sys2Proof.Machine

open Sys2Proof

/-! ### Registers -/

/-- A register read depends on the register file alone. -/
theorem v_eq_of_regs_eq {s t : State} (h : t.regs = s.regs) (r : RegIdx) : t.v r = s.v r := by simp [State.v, h]

/-! ### Choosing a key (spec/45_keys_timers.md R176) -/

theorem firstTrue_eq_some {bs : List Bool} {n k : Nat} :
    firstTrue bs n = some k ↔
      ∃ i, k = n + i ∧ bs[i]? = some true ∧ ∀ j, j < i → bs[j]? = some false := by
  induction bs generalizing n with
  | nil => simp [firstTrue]
  | cons b bs ih =>
    cases b with
    | true =>
      simp only [firstTrue, if_true, Option.some.injEq]
      constructor
      · rintro rfl; exact ⟨0, by simp⟩
      · rintro ⟨i, rfl, -, hj⟩
        cases i with
        | zero => rfl
        | succ i => simpa using hj 0 (by omega)
    | false =>
      simp only [firstTrue, Bool.false_eq_true, if_false, ih]
      constructor
      · rintro ⟨i, rfl, hi, hj⟩
        refine ⟨i + 1, by omega, by simpa using hi, fun j hlt => ?_⟩
        cases j with
        | zero => rfl
        | succ j => simpa using hj j (by omega)
      · rintro ⟨i, rfl, hi, hj⟩
        cases i with
        | zero => simp at hi
        | succ i =>
          exact ⟨i, by omega, by simpa using hi, fun j hlt => by simpa using hj (j + 1) (by omega)⟩

theorem firstTrue_eq_none {bs : List Bool} {n : Nat} : firstTrue bs n = none ↔ ∀ b ∈ bs, b = false := by
  induction bs generalizing n with
  | nil => simp [firstTrue]
  | cons b bs ih => cases b <;> simp [firstTrue, ih]

theorem keys_getElem? (s : State) (k : KeyIdx) : s.keys.toList[k.toNat]? = some (s.key k) := by
  simp [State.key, k.isLt]

/-- `pick_key` gives the lowest pressed index. -/
theorem pickKey_eq_some {s : State} {k : KeyIdx} :
    s.pickKey = some k ↔ s.key k = true ∧ ∀ j : KeyIdx, j.toNat < k.toNat → s.key j = false := by
  have hget : ∀ (i : Nat) (h : i < 16), s.keys.toList[i]? = some (s.key (BitVec.ofNat 4 i)) := by
    intro i h
    simpa [Nat.mod_eq_of_lt h] using keys_getElem? s (BitVec.ofNat 4 i)
  simp only [State.pickKey, Option.map_eq_some_iff]
  constructor
  · rintro ⟨n, hn, rfl⟩
    obtain ⟨i, rfl, hi, hj⟩ := firstTrue_eq_some.1 hn
    have hlt : i < 16 := by
      have := (List.getElem?_eq_some_iff.1 hi).1
      simpa using this
    rw [Nat.zero_add]
    refine ⟨by simpa [hget i hlt] using hi, fun j hjlt => ?_⟩
    have hji : j.toNat < i := by simpa [Nat.mod_eq_of_lt hlt] using hjlt
    have := hj j.toNat hji
    rw [keys_getElem?] at this
    exact Option.some.inj this
  · rintro ⟨hk, hj⟩
    refine ⟨k.toNat, firstTrue_eq_some.2 ⟨k.toNat, by omega, by rw [keys_getElem?, hk], fun j hlt => ?_⟩, by simp⟩
    have h16 : j < 16 := Nat.lt_trans hlt k.isLt
    rw [hget j h16, hj]
    simpa [Nat.mod_eq_of_lt h16] using hlt

/-- `pick_key` gives nothing exactly where no key is pressed. -/
theorem pickKey_eq_none {s : State} : s.pickKey = none ↔ ∀ k : KeyIdx, s.key k = false := by
  simp only [State.pickKey, Option.map_eq_none_iff, firstTrue_eq_none]
  constructor
  · intro h k
    exact h _ (by simp [State.key])
  · intro h b hb
    obtain ⟨i, hi, rfl⟩ := List.getElem_of_mem hb
    have h16 : i < 16 := by simpa using hi
    simpa [State.key, Nat.mod_eq_of_lt h16] using h (BitVec.ofNat 4 i)

/-! ### The call stack -/

/-- A push either finds the stack full, or stores the address in the next free slot and counts it. -/
theorem push_cases (s : State) (a : Word) :
    (s.sp.val = 48 ∧ s.push a = none) ∨
    ∃ h : s.sp.val < 48, s.push a =
      some { s with stack := s.stack.set s.sp.val a h, sp := ⟨s.sp.val + 1, Nat.succ_lt_succ h⟩ } := by
  by_cases h : s.sp.val < 48
  · exact .inr ⟨h, by simp [State.push, h]⟩
  · exact .inl ⟨by have := s.sp.isLt; simp only [Config.stackDepth] at this; omega, by simp [State.push, h]⟩

/-- A pop either finds the stack empty, or gives the newest address and uncounts it, keeping its slot. -/
theorem pop_cases (s : State) :
    (s.sp.val = 0 ∧ s.pop = none) ∨
    ∃ (n : Nat) (h : n < 48), s.sp.val = n + 1 ∧ s.pop =
      some (s.stack[n], { s with sp := ⟨n, Nat.lt_succ_of_lt h⟩ }) := by
  unfold State.pop
  split
  · rename_i heq
    exact .inl ⟨by rw [heq], rfl⟩
  · rename_i n h heq
    exact .inr ⟨n, Nat.lt_of_succ_lt_succ h, by rw [heq], rfl⟩

/-! ### Operands -/

@[simp] theorem zextAddr_toNat (nnn : Addr) : (zextAddr nnn).toNat = nnn.toNat := by
  simp only [zextAddr, BitVec.toNat_setWidth]
  exact Nat.mod_eq_of_lt (Nat.lt_trans nnn.isLt (by decide))

@[simp] theorem zextByte_toNat (b : Byte) : (zextByte b).toNat = b.toNat := by
  simp only [zextByte, BitVec.toNat_setWidth]
  exact Nat.mod_eq_of_lt (Nat.lt_trans b.isLt (by decide))

@[simp] theorem byteOfKey_toNat (k : KeyIdx) : (byteOfKey k).toNat = k.toNat := by
  simp only [byteOfKey, BitVec.toNat_setWidth]
  exact Nat.mod_eq_of_lt (Nat.lt_trans k.isLt (by decide))

/-- A register names the key of its value, up to 15. -/
theorem keyOfByte_eq_some {b : Byte} {k : KeyIdx} : keyOfByte b = some k ↔ b.toNat = k.toNat := by
  unfold keyOfByte
  split <;> rename_i h
  · rw [Option.some.injEq]
    constructor
    · rintro rfl
      simp only [BitVec.toNat_setWidth]
      exact (Nat.mod_eq_of_lt (by omega)).symm
    · intro e
      apply BitVec.eq_of_toNat_eq
      simp only [BitVec.toNat_setWidth, e]
      exact Nat.mod_eq_of_lt k.isLt
  · have := k.isLt
    simp only [reduceCtorEq, false_iff]
    omega

/-- A register above 15 names no key. -/
theorem keyOfByte_eq_none {b : Byte} : keyOfByte b = none ↔ 0xF < b.toNat := by
  unfold keyOfByte
  split <;> simp <;> omega

/-! ### Byte arithmetic (spec/44_alu.md R160) -/

@[simp] theorem sum8_toNat (a b : Byte) : (sum8 a b).toNat = (a.toNat + b.toNat) % 256 := by simp [sum8]

@[simp] theorem diff8_toNat (m n : Byte) : (diff8 m n).toNat = (m.toNat + 256 - n.toNat) % 256 := by
  simp [diff8]

@[simp] theorem shr8_toNat (v : Byte) : (shr8 v).toNat = v.toNat / 2 := by
  have := v.isLt
  simp only [shr8, BitVec.toNat_ofNat]
  omega

@[simp] theorem shl8_toNat (v : Byte) : (shl8 v).toNat = v.toNat * 2 % 256 := by simp [shl8]

@[simp] theorem carry_iff (a b : Byte) : carry a b = true ↔ 256 ≤ a.toNat + b.toNat := by simp [carry]

@[simp] theorem borrow_iff (m n : Byte) : borrow m n = true ↔ m.toNat < n.toNat := by simp [borrow]

@[simp] theorem flagByte_true : flagByte true = 1 := rfl

@[simp] theorem flagByte_false : flagByte false = 0 := rfl

/-- A flag write stores 1 where the condition holds and 0 otherwise. -/
theorem flagByte_toNat (c : Bool) : (flagByte c).toNat = if c then 1 else 0 := by cases c <;> rfl

theorem lowBit_eq (v : Byte) : lowBit v = decide (v.toNat % 2 = 1) := by
  simp [lowBit, BitVec.getLsbD, Nat.testBit_zero]

theorem highBit_eq (v : Byte) : highBit v = decide (128 ≤ v.toNat) := by
  have := v.isLt
  simp only [highBit, BitVec.getLsbD, Nat.testBit_eq_decide_div_mod_eq]
  congr 1
  apply propext
  omega

@[simp] theorem countDown_toNat (t : Byte) : (countDown t).toNat = t.toNat - 1 := by
  have := t.isLt
  unfold countDown
  split
  · have h1 : (1 : Byte).toNat = 1 := rfl
    simp only [BitVec.toNat_sub, h1]
    omega
  · omega

/-! ### Fetch (spec/20_memory.md R54) -/

/-- The word at an address is its byte and the next, high byte first, where both exist. -/
theorem wordAt_eq (m : Memory) (a : Nat) :
    wordAt m a = if a ≤ 0xFFE then some (wordOfBytes (m.lookup a) (m.lookup (a + 1))) else none := by
  unfold wordAt Memory.read
  have h4 : Config.memSize = 4096 := rfl
  by_cases h : a ≤ 0xFFE
  · simp [h, h4, show a < 4096 by omega, show a + 1 < 4096 by omega]
  · by_cases h' : a < 4096
    · simp [h, h4, h', show ¬ a + 1 < 4096 by omega]
    · simp [h, h4, h']

/-- The range check of the fetch agrees with the address space. -/
theorem fetch_eq_wordAt (s : State) : s.fetch = wordAt s.mem s.pc.toNat := by
  unfold State.fetch
  rw [wordAt_eq]
  have : Config.lastFetch = 0xFFE := rfl
  split <;> simp_all

/-- A fetch fails exactly above 0xFFE. -/
theorem fetch_eq_none {s : State} : s.fetch = none ↔ 0xFFE < s.pc.toNat := by
  rw [fetch_eq_wordAt, wordAt_eq]
  split <;> simp <;> omega

/-! ### Whose turn it is (spec/40_sequencer.md R107) -/

theorem turn_eq_fetch {s : State} : s.turn = .fetch ↔ s.status = .run ∧ s.stopped = false := by
  unfold State.turn
  cases s.status <;> cases s.stopped <;> simp
  split <;> simp

theorem turn_eq_complete {s : State} {x : RegIdx} {k : KeyIdx} :
    s.turn = .complete x k ↔ s.status = .waitKey x ∧ s.stopped = false ∧ s.pickKey = some k := by
  unfold State.turn
  cases s.status <;> cases s.stopped <;> simp
  split <;> simp_all

theorem turn_eq_hold {s : State} {h : Hold} :
    s.turn = .hold h ↔
      (s.stopped = true ∧ h = .stopped ∧ ∀ r, s.status ≠ .faulted r) ∨
      ∃ x, s.stopped = false ∧ s.status = .waitKey x ∧ s.pickKey = none ∧ h = .noKey x := by
  unfold State.turn
  cases hs : s.status <;> cases hp : s.stopped <;> simp [eq_comm]
  split <;> simp_all

theorem turn_eq_ended {s : State} {r : FaultRecord} : s.turn = .ended r ↔ s.status = .faulted r := by
  unfold State.turn
  cases s.status <;> cases s.stopped <;> simp
  split <;> simp

/-! ### Unknown and the environment -/

/-- Executing `Unknown` raises its fault or reports it, by the policy (spec/60_exceptions.md R204). -/
theorem execUnknown_cases (s : State) :
    (s.params.unknownPolicy = .fault ∧ execUnknown s = s.raise .unrecognizedInstruction) ∨
    (s.params.unknownPolicy = .skip ∧ execUnknown s = s.report .unrecognizedInstruction) := by
  unfold execUnknown
  cases s.params.unknownPolicy <;> simp

/-- A load is taken exactly before the first step and for an image that fits, and writes only memory
(spec/70_reset_and_hazards.md R243). -/
theorem load_eq_next {s t : State} {image : List Byte} :
    s.load image = .next t ↔
      s.started = false ∧ image.length ≤ 3584 ∧ t = { s with mem := s.mem.writeAll 0x200 image } := by
  unfold State.load imageOk
  cases s.started with
  | true => simp
  | false =>
    by_cases h : image.length ≤ Config.maxImage
    · simp [h, show image.length ≤ 3584 from h, Config.programStart, eq_comm]
    · simp [h, show ¬ image.length ≤ 3584 from h]

/-- A run of events is its first event and the run of the rest. -/
theorem runEvents_cons_next {e : Event} {es : List Event} {s u : State} :
    runEvents (e :: es) s = .next u ↔ ∃ t, transition e s = .next t ∧ runEvents es t = .next u := by
  simp only [runEvents]
  cases h : transition e s <;> simp

/-- Runs over concatenated events compose. -/
theorem runEvents_append {es fs : List Event} {s : State} :
    runEvents (es ++ fs) s =
      match runEvents es s with
      | .next t => runEvents fs t
      | .fault r => .fault r
      | .refused r => .refused r := by
  induction es generalizing s with
  | nil => rfl
  | cons e es ih =>
    simp only [List.cons_append, runEvents]
    cases transition e s <;> simp [ih]

/-- A property that every event keeps, for events that satisfy `ok`, holds after every run of such events. -/
theorem runEvents_induction {P : State → Prop} {ok : Event → Prop}
    (hstep : ∀ e s t, ok e → P s → transition e s = .next t → P t) :
    ∀ es s t, (∀ e ∈ es, ok e) → P s → runEvents es s = .next t → P t := by
  intro es
  induction es with
  | nil => intro s t _ hs h; simp only [runEvents, Host.Outcome.next.injEq] at h; exact h ▸ hs
  | cons e es ih =>
    intro s t hok hs h
    obtain ⟨u, hu, ht⟩ := runEvents_cons_next.1 h
    exact ih u t (fun e' he' => hok e' (by simp [he'])) (hstep e s u (hok e (by simp)) hs hu) ht

end Sys2Proof.Machine
end

