-- ==== Sys2Proof/Laws/PerInstr.lean ====
section
/-! SUPPORT. Statements made once per constructor of Instr: the word an instruction encodes to selects its row of the
opcode map (spec/30_encoding.md R78). -/

namespace Sys2Proof.Laws.EncodeInRow

open Sys2Proof

/-- The instruction's row is one of the map's, and its encoded word selects it. -/
def Statement (i : Instr) : Prop := i.row ∈ opcodeMap ∧ i.row.Selects (encode i)

/-- Masking a word of shape `A` to its family. -/
theorem selects_encA (f : BitVec 4) (nnn : Addr) : encA f nnn &&& (0xF000 : Word) = encA f 0 := by
  have hm : (0xF000 : Word) = (0xF#4 ++ 0x000#12 : BitVec (4 + 12)) := rfl
  have hf : f &&& 0xF#4 = f := BitVec.and_allOnes
  have hn : nnn &&& 0x000#12 = 0 := BitVec.and_zero
  rw [hm]
  exact (BitVec.and_append.trans (by rw [hf, hn]; rfl))

/-- Masking a word of shape `XI` to its family. -/
theorem selects_encXI (f : BitVec 4) (x : RegIdx) (nn : Byte) :
    encXI f x nn &&& (0xF000 : Word) = encXI f 0 0 := by
  have hm : (0xF000 : Word) = (0xF#4 ++ 0x0#4 ++ 0x00#8 : BitVec (4 + 4 + 8)) := rfl
  have hf : f &&& 0xF#4 = f := BitVec.and_allOnes
  have hx : x &&& 0x0#4 = 0 := BitVec.and_zero
  have hn : nn &&& 0x00#8 = 0 := BitVec.and_zero
  rw [hm]
  exact (BitVec.and_append.trans (by rw [BitVec.and_append, hf, hx, hn]; rfl))

/-- Masking a word of shape `XF` to its family and function byte. -/
theorem selects_encXF (f : BitVec 4) (x : RegIdx) (nn : Byte) :
    encXI f x nn &&& (0xF0FF : Word) = encXI f 0 nn := by
  have hm : (0xF0FF : Word) = (0xF#4 ++ 0x0#4 ++ 0xFF#8 : BitVec (4 + 4 + 8)) := rfl
  have hf : f &&& 0xF#4 = f := BitVec.and_allOnes
  have hx : x &&& 0x0#4 = 0 := BitVec.and_zero
  have hn : nn &&& 0xFF#8 = nn := BitVec.and_allOnes
  rw [hm]
  exact (BitVec.and_append.trans (by rw [BitVec.and_append, hf, hx, hn]; rfl))

/-- Masking a word of shape `XY` to its family and function nibble. -/
theorem selects_encXY (f : BitVec 4) (x y : RegIdx) (n : BitVec 4) :
    encXY f x y n &&& (0xF00F : Word) = encXY f 0 0 n := by
  have hm : (0xF00F : Word) = (0xF#4 ++ 0x0#4 ++ 0x0#4 ++ 0xF#4 : BitVec (4 + 4 + 4 + 4)) := rfl
  have hf : f &&& 0xF#4 = f := BitVec.and_allOnes
  have hx : x &&& 0x0#4 = 0 := BitVec.and_zero
  have hy : y &&& 0x0#4 = 0 := BitVec.and_zero
  have hn : n &&& 0xF#4 = n := BitVec.and_allOnes
  rw [hm]
  exact (BitVec.and_append.trans (by rw [BitVec.and_append, BitVec.and_append, hf, hx, hy, hn]; rfl))

theorem ret : Statement .ret := ⟨by simp [Instr.row, opcodeMap], by decide⟩
theorem jp (nnn : Addr) : Statement (.jp nnn) := ⟨by simp [Instr.row, opcodeMap], selects_encA _ nnn⟩
theorem call (nnn : Addr) : Statement (.call nnn) := ⟨by simp [Instr.row, opcodeMap], selects_encA _ nnn⟩
theorem seByte (x : RegIdx) (nn : Byte) : Statement (.seByte x nn) := ⟨by simp [Instr.row, opcodeMap], selects_encXI _ x nn⟩
theorem sneByte (x : RegIdx) (nn : Byte) : Statement (.sneByte x nn) := ⟨by simp [Instr.row, opcodeMap], selects_encXI _ x nn⟩
theorem seReg (x y : RegIdx) : Statement (.seReg x y) := ⟨by simp [Instr.row, opcodeMap], selects_encXY _ x y _⟩
theorem ldByte (x : RegIdx) (nn : Byte) : Statement (.ldByte x nn) := ⟨by simp [Instr.row, opcodeMap], selects_encXI _ x nn⟩
theorem addByte (x : RegIdx) (nn : Byte) : Statement (.addByte x nn) := ⟨by simp [Instr.row, opcodeMap], selects_encXI _ x nn⟩
theorem ldReg (x y : RegIdx) : Statement (.ldReg x y) := ⟨by simp [Instr.row, opcodeMap], selects_encXY _ x y _⟩
theorem or (x y : RegIdx) : Statement (.or x y) := ⟨by simp [Instr.row, opcodeMap], selects_encXY _ x y _⟩
theorem and (x y : RegIdx) : Statement (.and x y) := ⟨by simp [Instr.row, opcodeMap], selects_encXY _ x y _⟩
theorem xor (x y : RegIdx) : Statement (.xor x y) := ⟨by simp [Instr.row, opcodeMap], selects_encXY _ x y _⟩
theorem addReg (x y : RegIdx) : Statement (.addReg x y) := ⟨by simp [Instr.row, opcodeMap], selects_encXY _ x y _⟩
theorem sub (x y : RegIdx) : Statement (.sub x y) := ⟨by simp [Instr.row, opcodeMap], selects_encXY _ x y _⟩
theorem shr (x y : RegIdx) : Statement (.shr x y) := ⟨by simp [Instr.row, opcodeMap], selects_encXY _ x y _⟩
theorem subn (x y : RegIdx) : Statement (.subn x y) := ⟨by simp [Instr.row, opcodeMap], selects_encXY _ x y _⟩
theorem shl (x y : RegIdx) : Statement (.shl x y) := ⟨by simp [Instr.row, opcodeMap], selects_encXY _ x y _⟩
theorem sneReg (x y : RegIdx) : Statement (.sneReg x y) := ⟨by simp [Instr.row, opcodeMap], selects_encXY _ x y _⟩
theorem jpV0 (nnn : Addr) : Statement (.jpV0 nnn) := ⟨by simp [Instr.row, opcodeMap], selects_encA _ nnn⟩
theorem rnd (x : RegIdx) (nn : Byte) : Statement (.rnd x nn) := ⟨by simp [Instr.row, opcodeMap], selects_encXI _ x nn⟩
theorem skp (x : RegIdx) : Statement (.skp x) := ⟨by simp [Instr.row, opcodeMap], selects_encXF _ x _⟩
theorem sknp (x : RegIdx) : Statement (.sknp x) := ⟨by simp [Instr.row, opcodeMap], selects_encXF _ x _⟩
theorem ldVxDt (x : RegIdx) : Statement (.ldVxDt x) := ⟨by simp [Instr.row, opcodeMap], selects_encXF _ x _⟩
theorem ldVxK (x : RegIdx) : Statement (.ldVxK x) := ⟨by simp [Instr.row, opcodeMap], selects_encXF _ x _⟩
theorem ldDtVx (x : RegIdx) : Statement (.ldDtVx x) := ⟨by simp [Instr.row, opcodeMap], selects_encXF _ x _⟩
theorem ldStVx (x : RegIdx) : Statement (.ldStVx x) := ⟨by simp [Instr.row, opcodeMap], selects_encXF _ x _⟩

end Sys2Proof.Laws.EncodeInRow
end

