-- ==== Sys2Proof/Laws/Step.lean ====
section
/-! SUPPORT. What a step can do, said once, and how a frame is proved field by field. -/

namespace Sys2Proof.Machine

open Sys2Proof

/-- A step that answers a next state is one of four: a fetch fault, a decoded instruction after the advance phase, an
`Unknown` word after it, or the completion of a wait (spec/40_sequencer.md R100). -/
theorem step_eq_next {s t : State} :
    step s = .next t ↔
      (s.status = .run ∧ s.stopped = false ∧
        ((0xFFE < s.pc.toNat ∧ t = s.fetchFault) ∨
         (∃ w i, s.fetch = some w ∧ decode w = .instr i ∧ exec i (s.advance w) = .next t) ∨
         (∃ w, s.fetch = some w ∧ decode w = .unknown ∧ t = execUnknown (s.advance w)))) ∨
      (∃ x k, s.status = .waitKey x ∧ s.stopped = false ∧ s.pickKey = some k ∧ t = s.completeWait x k) := by
  unfold step
  cases h : s.turn with
  | ended r =>
    have := turn_eq_ended.1 h
    simp [this]
  | hold hd =>
    rcases turn_eq_hold.1 h with ⟨hs, -, -⟩ | ⟨x, -, hx, hn, -⟩
    · simp [hs]
    · simp [hx, hn]
  | complete x k =>
    obtain ⟨h1, h2, h3⟩ := turn_eq_complete.1 h
    simp [h1, h2, h3, eq_comm]
  | fetch =>
    obtain ⟨h1, h2⟩ := turn_eq_fetch.1 h
    cases hf : s.fetch with
    | none =>
      have := fetch_eq_none.1 hf
      simp [h1, h2, this, eq_comm]
    | some w =>
      have hlt : ¬ 0xFFE < s.pc.toNat := fun hc => by simp [fetch_eq_none.2 hc] at hf
      cases hd : decode w <;> simp [h1, h2, hlt, hd, execute, eq_comm]

/-- A frame from its fields: what the listed parts leave out is shown field by field. -/
theorem onlyChanges_of_fields {ps : List Part} {s t : State}
    (regs : ∀ r, .reg r ∉ ps → t.v r = s.v r) (pc : .pc ∉ ps → t.pc = s.pc) (index : .index ∉ ps → t.index = s.index)
    (stack : ∀ j, .slot j ∉ ps → t.stack[j] = s.stack[j]) (sp : .sp ∉ ps → t.sp = s.sp)
    (dt : .dt ∉ ps → t.dt = s.dt) (st : .st ∉ ps → t.st = s.st) (keys : ∀ k, .key k ∉ ps → t.key k = s.key k)
    (lastKey : .lastKey ∉ ps → t.lastKey = s.lastKey) (stopped : .stopped ∉ ps → t.stopped = s.stopped)
    (mem : ∀ a, .mem a ∉ ps → t.mem.read a = s.mem.read a) (status : .status ∉ ps → t.status = s.status)
    (latch : .latch ∉ ps → t.latch = s.latch) (params : .params ∉ ps → t.params = s.params)
    (draws : .draws ∉ ps → t.draws = s.draws) (reports : .reports ∉ ps → t.reports = s.reports)
    (started : .started ∉ ps → t.started = s.started) : OnlyChanges ps s t := by
  intro p hp
  cases p with
  | reg r => exact regs r hp
  | pc => exact pc hp
  | index => exact index hp
  | slot j => exact stack j hp
  | sp => exact sp hp
  | dt => exact dt hp
  | st => exact st hp
  | key k => exact keys k hp
  | lastKey => exact lastKey hp
  | stopped => exact stopped hp
  | mem a => exact mem a hp
  | status => exact status hp
  | latch => exact latch hp
  | params => exact params hp
  | draws => exact draws hp
  | reports => exact reports hp
  | started => exact started hp

/-- A frame may be widened. -/
theorem onlyChanges_mono {ps qs : List Part} {s t : State} (h : OnlyChanges ps s t) (hsub : ∀ p ∈ ps, p ∈ qs) :
    OnlyChanges qs s t := fun p hp => h p fun hps => hp (hsub p hps)

/-- Frames compose: what two moves leave alone, both together leave alone. -/
theorem onlyChanges_trans {ps : List Part} {s t u : State} (h : OnlyChanges ps s t) (h' : OnlyChanges ps t u) :
    OnlyChanges ps s u := by
  intro p hp
  have h1 := h p hp
  have h2 := h' p hp
  cases p <;> exact h2.trans h1

end Sys2Proof.Machine
end

