-- ==== Sys2Proof/Tests/Slice0.lean ====
section
/-! SUPPORT. Tests: words written out from spec/30_encoding.md R78, ill-formed terms, one-step vectors of
spec/95_test_vectors.md (the id stands before each), and witnesses of the statements' hypotheses. -/

namespace Sys2Proof.Tests

open Sys2Proof Sys2Proof.Machine

/-! ### Well-formedness: an ill-formed term for each check (R84, R243) -/

theorem test_wf_register : AsmLine.wellFormed ⟨.ld, [.v 16, .lit 0]⟩ = false ∧
    AsmLine.wellFormed ⟨.ld, [.v 15, .lit 0]⟩ = true := by decide
theorem test_wf_byte : AsmLine.wellFormed ⟨.add, [.v 0, .lit 256]⟩ = false ∧
    AsmLine.wellFormed ⟨.add, [.v 0, .lit 255]⟩ = true := by decide
theorem test_wf_addr : AsmLine.wellFormed ⟨.call, [.lit 4096]⟩ = false ∧
    AsmLine.wellFormed ⟨.call, [.lit 4095]⟩ = true := by decide
theorem test_wf_offset_register : AsmLine.wellFormed ⟨.jp, [.v 1, .lit 0x210]⟩ = false ∧
    AsmLine.wellFormed ⟨.jp, [.v 0, .lit 0x210]⟩ = true := by decide
theorem test_wf_shape : AsmLine.wellFormed ⟨.shr, [.v 1, .lit 2]⟩ = false ∧
    AsmLine.wellFormed ⟨.ret, [.v 0]⟩ = false ∧ AsmLine.wellFormed ⟨.ld, [.v 1, .st]⟩ = false := by decide
/-- An image of `n` bytes. -/
def ones (n : Nat) : List Byte := List.replicate n 1

theorem ones_length (n : Nat) : (ones n).length = n := List.length_replicate

theorem test_wf_image : imageOk (ones 3585) = false ∧ imageOk (ones 3584) = true := by
  simp [imageOk, Config.maxImage, ones_length]
theorem test_wf_memory : Memory.wf [(5, 1), (4, 1)] = false ∧ Memory.wf [(4, 0)] = false ∧
    Memory.wf [(4096, 1)] = false ∧ Memory.wf [(4, 1), (5, 1)] = true := by decide

/-! ### Decoding: one word per constructor, bits from R78 -/

theorem test_decode_ret : decode 0b0000000011101110 = .instr .ret ∧ decode 0b0000010111101110 = .instr .ret := by decide
theorem test_decode_jp : decode 0b0001001000110100 = .instr (.jp 0x234) := by decide
theorem test_decode_call : decode 0b0010001010101110 = .instr (.call 0x2AE) := by decide
theorem test_decode_seByte : decode 0b0011000000000101 = .instr (.seByte 0 0x05) := by decide
theorem test_decode_sneByte : decode 0b0100001100010000 = .instr (.sneByte 3 0x10) := by decide
theorem test_decode_seReg : decode 0b0101000100100000 = .instr (.seReg 1 2) := by decide
theorem test_decode_ldByte : decode 0b0110000000010101 = .instr (.ldByte 0 0x15) := by decide
theorem test_decode_addByte : decode 0b0111010100010000 = .instr (.addByte 5 0x10) := by decide
theorem test_decode_ldReg : decode 0b1000001011110000 = .instr (.ldReg 2 0xF) := by decide
theorem test_decode_or : decode 0b1000001100100001 = .instr (.or 3 2) := by decide
theorem test_decode_and : decode 0b1000000000010010 = .instr (.and 0 1) := by decide
theorem test_decode_xor : decode 0b1000000000010011 = .instr (.xor 0 1) := by decide
theorem test_decode_addReg : decode 0b1000111100010100 = .instr (.addReg 0xF 1) := by decide
theorem test_decode_sub : decode 0b1000000000010101 = .instr (.sub 0 1) := by decide
theorem test_decode_shr : decode 0b1000000100000110 = .instr (.shr 1 0) := by decide
theorem test_decode_subn : decode 0b1000000100000111 = .instr (.subn 1 0) := by decide
theorem test_decode_shl : decode 0b1000001000001110 = .instr (.shl 2 0) := by decide
theorem test_decode_sneReg : decode 0b1001000100100000 = .instr (.sneReg 1 2) := by decide
theorem test_decode_jpV0 : decode 0b1011001000010000 = .instr (.jpV0 0x210) := by decide
theorem test_decode_rnd : decode 0b1100001100001111 = .instr (.rnd 3 0x0F) := by decide
theorem test_decode_skp : decode 0b1110010110011110 = .instr (.skp 5) := by decide
theorem test_decode_sknp : decode 0b1110000010100001 = .instr (.sknp 0) := by decide
theorem test_decode_ldVxDt : decode 0b1111001000000111 = .instr (.ldVxDt 2) := by decide
theorem test_decode_ldVxK : decode 0b1111010100001010 = .instr (.ldVxK 5) := by decide
theorem test_decode_ldDtVx : decode 0b1111000100010101 = .instr (.ldDtVx 1) := by decide
theorem test_decode_ldStVx : decode 0b1111000100011000 = .instr (.ldStVx 1) := by decide
theorem test_decode_unknown : decode 0x0000 = .unknown ∧ decode 0x00E0 = .unknown ∧ decode 0x5121 = .unknown ∧
    decode 0x912F = .unknown ∧ decode 0x8018 = .unknown ∧ decode 0xA123 = .unknown ∧ decode 0xD123 = .unknown ∧
    decode 0xE09F = .unknown ∧ decode 0xF01E = .unknown := by decide

/-! ### One-step vectors -/

/-- The outcome is a next state with the property. -/
def nextWith (o : Host.Outcome State Fault Refusal) (p : State → Bool) : Bool :=
  match o with
  | .next t => p t
  | .fault _ => false
  | .refused _ => false

/-- One step from `s` on the word `w` placed at its `pc`. -/
def stepOn (s : State) (w : Word) (p : State → Bool) : Bool := nextWith (step (s.placeWord w)) p

/-- The reset state with some registers set. -/
def withRegs : List (RegIdx × Byte) → State
  | [] => State.reset
  | (r, b) :: rs => (withRegs rs).setV r b

/-- The reset state with `n` return addresses counted and the address `a` in every slot. -/
def withStack (n : Fin 49) (a : Word) : State := { State.reset with sp := n, stack := Vector.replicate 48 a }

/-- The reset state under the other parameters. -/
def otherParams : State := State.fresh ⟨.skip, true⟩ 0

/-- V-CF9 -/
theorem test_ret : stepOn (withStack 48 0x456) 0x00EE
    (fun t => t.pc == 0x456 && t.sp == 47 && t.stack[47] == 0x456) = true := by decide
/-- V-CF10 -/
theorem test_ret_underflow : stepOn State.reset 0x00EE
    (fun t => t.pc == 0x202 && t.status == .faulted ⟨.stackUnderflow, 0x200, 0x00EE⟩) = true := by decide
/-- V-CF4 -/
theorem test_jp : stepOn State.reset 0x1201 (fun t => t.pc == 0x201) = true := by decide
/-- V-CF6 -/
theorem test_call : stepOn { withStack 47 0 with pc := 0x2F0 } 0x2300
    (fun t => t.pc == 0x300 && t.sp == 48 && t.stack[47] == 0x2F2 && t.status == .run) = true := by decide
/-- V-CF7 -/
theorem test_call_overflow : stepOn (withStack 48 0) 0x2300
    (fun t => t.pc == 0x202 && t.sp == 48 && t.status == .faulted ⟨.stackOverflow, 0x200, 0x2300⟩) = true := by decide
/-- V-CF13 -/
theorem test_jpV0 : stepOn (withRegs [(0, 0xFF)]) 0xBFFF (fun t => t.pc == 0x10FE) = true := by decide
/-- V-SK4 -/
theorem test_seByte : stepOn { State.reset with pc := 0xFFC } 0x3000 (fun t => t.pc == 0x1000) = true := by decide
/-- V-SK5 -/
theorem test_sneByte : stepOn (withRegs [(3, 0x10)]) 0x4310 (fun t => t.pc == 0x202) = true := by decide
/-- V-SK7 -/
theorem test_seReg : stepOn (withRegs [(1, 0x7F), (2, 0x7F)]) 0x5120 (fun t => t.pc == 0x204) = true := by decide
/-- V-SK11 -/
theorem test_sneReg : stepOn (withRegs [(1, 1), (2, 2)]) 0x9120 (fun t => t.pc == 0x204) = true := by decide
/-- V-IM2 -/
theorem test_ldByte : stepOn (withRegs [(0xF, 1)]) 0x6FAB (fun t => t.pc == 0x202 && t.v 0xF == 0xAB) = true := by decide
/-- V-IM6 -/
theorem test_addByte : stepOn (withRegs [(5, 0x20), (0xF, 1)]) 0x7510
    (fun t => t.v 5 == 0x30 && t.v 0xF == 1) = true := by decide
/-- V-IM8 -/
theorem test_addByte_flag : stepOn (otherParams.setV 0xF 0xFF) 0x7F01 (fun t => t.v 0xF == 1) = true := by decide
/-- V-IM9, for every draw -/
theorem test_rnd (s : State) :
    exec (.rnd 3 0x0F) s = .next ({ s with draws := s.draws + 1 }.setV 3 (Config.rndByte s.draws &&& 0x0F)) := rfl
/-- V-AL1 -/
theorem test_ldReg : stepOn (withRegs [(0xF, 1)]) 0x82F0 (fun t => t.v 2 == 1) = true := by decide
/-- V-AL2 -/
theorem test_or : stepOn (withRegs [(2, 0x02), (3, 0x40), (0xF, 1)]) 0x8321
    (fun t => t.v 3 == 0x42 && t.v 0xF == 1) = true := by decide
/-- V-AL3 -/
theorem test_and : stepOn (withRegs [(0, 0xF0), (1, 0x3C)]) 0x8012 (fun t => t.v 0 == 0x30) = true := by decide
/-- V-AL4 -/
theorem test_xor : stepOn (withRegs [(0, 0xF0), (1, 0x3C)]) 0x8013 (fun t => t.v 0 == 0xCC) = true := by decide
/-- V-AL9 -/
theorem test_addReg_vf : stepOn (withRegs [(1, 2), (0xF, 0xFF)]) 0x8F14 (fun t => t.v 0xF == 1) = true := by decide
/-- V-AL10 -/
theorem test_addReg_old_vf : stepOn (withRegs [(0, 0x10), (0xF, 1)]) 0x80F4
    (fun t => t.v 0 == 0x11 && t.v 0xF == 0) = true := by decide
/-- V-AL11 -/
theorem test_sub_borrow : stepOn (withRegs [(0, 1), (1, 2)]) 0x8015
    (fun t => t.v 0 == 0xFF && t.v 0xF == 1) = true := by decide
/-- V-AL14 -/
theorem test_sub_vf : stepOn (withRegs [(1, 3), (0xF, 5)]) 0x8F15 (fun t => t.v 0xF == 0) = true := by decide
/-- V-AL16 -/
theorem test_shr : stepOn (withRegs [(0, 0x80), (1, 0x77), (0xF, 1)]) 0x8106
    (fun t => t.v 1 == 0x40 && t.v 0xF == 0) = true := by decide
/-- V-AL18 -/
theorem test_shr_old_vf : stepOn (withRegs [(0xF, 3)]) 0x80F6 (fun t => t.v 0 == 1 && t.v 0xF == 1) = true := by decide
/-- V-AL19 -/
theorem test_subn : stepOn (withRegs [(0, 0xFF), (1, 2)]) 0x8107
    (fun t => t.v 1 == 0xFD && t.v 0xF == 0) = true := by decide
/-- V-AL20 -/
theorem test_subn_borrow : stepOn (withRegs [(0, 1)]) 0x8017 (fun t => t.v 0 == 0xFF && t.v 0xF == 1) = true := by decide
/-- V-AL22 -/
theorem test_shl : stepOn (withRegs [(0, 0x81)]) 0x820E (fun t => t.v 2 == 2 && t.v 0xF == 1) = true := by decide
/-- V-AL23 -/
theorem test_shl_no_flag : stepOn (withRegs [(0, 0x7F)]) 0x810E (fun t => t.v 1 == 0xFE && t.v 0xF == 0) = true := by decide
/-- V-KT1 -/
theorem test_skp : stepOn { (withRegs [(5, 3)]).setKey 3 true with pc := 0x202 } 0xE59E
    (fun t => t.pc == 0x206) = true := by decide
/-- V-KT3 -/
theorem test_skp_fault : stepOn (withRegs [(5, 0x10)]) 0xE59E
    (fun t => t.pc == 0x202 && t.status == .faulted ⟨.keyIndexOutOfRange, 0x200, 0xE59E⟩) = true := by decide
/-- V-KT5 -/
theorem test_sknp : stepOn ((withRegs [(0, 0xA)]).setKey 0xA true) 0xE0A1 (fun t => t.pc == 0x202) = true := by decide
/-- V-KT6 -/
theorem test_sknp_fault : stepOn (withRegs [(0, 0xFF)]) 0xE0A1
    (fun t => t.status == .faulted ⟨.keyIndexOutOfRange, 0x200, 0xE0A1⟩) = true := by decide
/-- V-KT7 -/
theorem test_ldVxDt : stepOn { State.reset with dt := 0x3C } 0xF207 (fun t => t.v 2 == 0x3C) = true := by decide
/-- V-KT10 -/
theorem test_ldVxK : stepOn (((State.reset.setKey 2 true).setKey 9 true).setKey 0xC true) 0xF50A
    (fun t => t.pc == 0x202 && t.v 5 == 2 && t.status == .run) = true := by decide
/-- V-KT11 -/
theorem test_ldVxK_wait : stepOn (withRegs [(5, 9)]) 0xF50A
    (fun t => t.pc == 0x202 && t.v 5 == 9 && t.status == .waitKey 5) = true := by decide
/-- V-KT14 -/
theorem test_ldDtVx : stepOn (withRegs [(1, 0x3C)]) 0xF115 (fun t => t.dt == 0x3C && t.st == 0) = true := by decide
/-- V-KT16 -/
theorem test_ldStVx : stepOn (withRegs [(1, 0x3C)]) 0xF118
    (fun t => t.st == 0x3C && t.dt == 0 && t.soundActive) = true := by decide

/-- The state of V-KT11's end. -/
def waiting : State := { State.reset with pc := 0x202, status := .waitKey 5, started := true }

/-- V-KT12 -/
theorem test_wait_completes : nextWith (runEvents [.env (.setKey 7 true), .core] waiting)
    (fun t => t.v 5 == 7 && t.pc == 0x202 && t.status == .run) = true := by decide
/-- V-KT13 -/
theorem test_wait_holds : step waiting = .refused (.held (.noKey 5)) := rfl
/-- V-H7 -/
theorem test_stopped_holds : step { State.reset with stopped := true } = .refused (.held .stopped) := rfl
/-- V-H2 and V-H3 -/
theorem test_tick : nextWith (act .timerTick { State.reset with dt := 1 })
    (fun t => t.dt == 0 && t.st == 0 && !t.soundActive) = true := by decide
/-- V-F2 -/
theorem test_fetch_fault : nextWith (step { State.reset with pc := 0xFFF })
    (fun t => t.pc == 0xFFF && t.status == .faulted ⟨.fetchOutOfRange, 0xFFF, 0⟩) = true := by decide
/-- V-F4 -/
theorem test_fetch_odd : nextWith (step { State.reset with pc := 0x201, mem := [(0x201, 0x61), (0x202, 0x07)] })
    (fun t => t.pc == 0x203 && t.v 1 == 7) = true := by decide
/-- V-D3 -/
theorem test_unknown_fault : stepOn State.reset 0xA123
    (fun t => t.pc == 0x202 && t.status == .faulted ⟨.unrecognizedInstruction, 0x200, 0xA123⟩ && t.index == 0) = true := by
  decide
/-- V-D4 -/
theorem test_unknown_skip : stepOn otherParams 0xA123
    (fun t => t.pc == 0x202 && t.status == .run && t.reports == [⟨.unrecognizedInstruction, 0x200, 0xA123⟩]) = true := by
  decide
/-- P1's bytes, loaded at 0x200 (R243). -/
theorem test_load : nextWith (boot {} [0x60, 0x00, 0x70]) (fun t => t.mem == [(0x200, 0x60), (0x202, 0x70)]) = true := by
  decide
/-- Codes of R200. -/
theorem test_cause_codes : Cause.unrecognizedInstruction.code = 1 ∧ Cause.stackOverflow.code = 2 ∧
    Cause.stackUnderflow.code = 3 ∧ Cause.fetchOutOfRange.code = 4 ∧ Cause.keyIndexOutOfRange.code = 5 := by decide
/-- The bytes of 0x22AE in memory order (R53). -/
theorem test_read_bytes : Memory.readBytes (State.reset.placeWord 0x22AE).mem 0x200 2 = some [0x22, 0xAE] := by decide

/-! ### Witnesses of the statements' hypotheses -/

/-- A faulted machine, as V-CF10 leaves it. -/
def faulted : State :=
  { State.reset with pc := 0x202, status := .faulted ⟨.stackUnderflow, 0x200, 0x00EE⟩, started := true }

/-- A machine at a jump to itself (V-CF2), after a first step. -/
def atSelfJump : State := { State.reset.placeWord 0x1200 with started := true }

theorem witness_EncodeOfDecodeIsTheWord : decode 0x6015 = .instr (.ldByte 0 0x15) ∧ Instr.ldByte 0 0x15 ≠ .ret := by decide
theorem witness_OpcodeMapDecides : ⟨0xF0FF, 0xE09E⟩ ∈ opcodeMap ∧ OpcodeRow.Selects ⟨0xF0FF, 0xE09E⟩ 0xE59E ∧
    decode 0xE59E = .instr (.skp 5) := by decide
theorem witness_AssemblerLinesNameInstructions : assemble ⟨.ld, [.v 15, .lit 255]⟩ = some (.ldByte 0xF 0xFF) ∧
    AsmLine.wellFormed ⟨.ld, [.v 15, .lit 255]⟩ = true ∧ AsmLine.wellFormed ⟨.ld, [.v 16, .lit 0]⟩ = false := by decide
theorem witness_FetchReadsHighByteFirst :
    Memory.read [(0xFFE, 0x12)] 0xFFE = some 0x12 ∧ Memory.read [(0xFFE, 0x12)] 0xFFF = some 0 := by decide
theorem witness_FetchAboveMemoryFaults : ∃ s : State, s.status = .run ∧ s.stopped = false ∧ s.pc = 0xFFF ∧
    0xFFE < s.pc.toNat := ⟨{ State.reset with pc := 0xFFF }, by decide⟩
theorem witness_StepRunsTheDecodedInstruction : ∃ s : State, s.status = .run ∧ s.stopped = false ∧
    s.fetch = some 0x00EE ∧ decode 0x00EE = .instr .ret := ⟨State.reset.placeWord 0x00EE, by decide⟩
theorem witness_PlacedWordIsTheOneRun : State.reset.mem.Wf ∧ State.reset.status = .run ∧ State.reset.stopped = false ∧
    State.reset.pc.toNat ≤ 0xFFE := by decide
theorem witness_UnknownFollowsThePolicy_fault : ∃ s : State, s.status = .run ∧ s.stopped = false ∧
    s.fetch = some 0 ∧ decode 0 = .unknown ∧ s.params.unknownPolicy = .fault := ⟨State.reset, by decide⟩
theorem witness_UnknownFollowsThePolicy_skip : ∃ s : State, s.status = .run ∧ s.stopped = false ∧
    s.fetch = some 0 ∧ decode 0 = .unknown ∧ s.params.unknownPolicy = .skip := ⟨otherParams, by decide⟩
theorem witness_StepIsEnabledExactly_ended : faulted.status = .faulted ⟨.stackUnderflow, 0x200, 0x00EE⟩ := rfl
theorem witness_StepIsEnabledExactly_stopped : ∃ s : State, (∀ r, s.status ≠ .faulted r) ∧ s.stopped = true :=
  ⟨{ State.reset with stopped := true }, by simp [State.reset, State.fresh], rfl⟩
theorem witness_StepIsEnabledExactly_noKey : waiting.status = .waitKey 5 ∧ waiting.stopped = false ∧
    ∀ k, waiting.key k = false := by decide
theorem witness_WaitCommitsTheLowestKey : ∃ s : State, s.status = .waitKey 5 ∧ s.stopped = false ∧
    s.key 0xF = true ∧ ∀ j : KeyIdx, j.toNat < (0xF : KeyIdx).toNat → s.key j = false :=
  ⟨waiting.setKey 0xF true, by decide⟩

/-- A machine that has just taken V-CF10's fault is consistent. -/
theorem consistent_reset_placed : Consistent (State.reset.placeWord 0x00EE) where
  memory := by decide
  unstarted := by simp [State.reset, State.fresh]
  waiting := by simp [State.reset, State.fresh]
  faulted := by simp [State.reset, State.fresh]
  reported := by simp [State.reset, State.fresh]

theorem witness_StepKeepsTheMachineConsistent : ∃ s t : State, Consistent s ∧ step s = .next t :=
  ⟨State.reset.placeWord 0x00EE, _, consistent_reset_placed, rfl⟩
theorem witness_EveryRunKeepsTheMachineConsistent : ∃ (s t : State), Consistent s ∧
    runEvents [.env (.setKey 3 true), .core, .env .timerTick, .env .reset] s = .next t :=
  ⟨State.reset.placeWord 0x00EE, _, consistent_reset_placed, rfl⟩
theorem witness_AFaultEndsTheRun : ∃ t, (∀ e ∈ [Event.env .timerTick], e ≠ .env .reset) ∧
    runEvents [.env .timerTick] faulted = .next t := ⟨_, by decide, rfl⟩
theorem witness_MemoryIsConstantOnceStarted : ∃ t, atSelfJump.started = true ∧
    (∀ e ∈ [Event.core, .env .timerTick], e ≠ .env .reset) ∧ runEvents [.core, .env .timerTick] atSelfJump = .next t :=
  ⟨_, rfl, by decide, rfl⟩
theorem witness_CoreStepLeavesTheEnvironmentsState : ∃ t, step State.reset = .next t := ⟨_, rfl⟩
theorem witness_EnvironmentLeavesTheCoresState : ∃ t, EnvAction.timerTick ≠ .reset ∧ act .timerTick faulted = .next t ∧
    faulted.started = true := ⟨_, by decide, rfl, rfl⟩
theorem witness_LatchAndStopActionsWriteOneField : ∃ b : Bool, b = true := ⟨true, rfl⟩
theorem witness_LoadCopiesTheImage_fits : State.reset.mem.Wf ∧ State.reset.started = false ∧
    (ones 3584).length ≤ 3584 := ⟨by decide, rfl, (ones_length 3584).le⟩
theorem witness_LoadCopiesTheImage_long : State.reset.started = false ∧ 3584 < (ones 3585).length :=
  ⟨rfl, by rw [ones_length]; decide⟩
theorem witness_LoadCopiesTheImage_late : faulted.started = true := rfl
theorem witness_LoadCopiesTheImage_bytes : ([0x60, 0x15] : List Byte)[1]? = some 0x15 := rfl
theorem witness_BootedMachineFetchesTheImage : ((0x60 : Byte) :: 0x15 :: ones 3582).length ≤ 3584 := by
  rw [List.length_cons, List.length_cons, ones_length]
theorem witness_RetPopsTheReturnAddress : (withStack 48 0x456).sp.val = 47 + 1 ∧ 47 < 48 ∧
    (withStack 1 0x206).sp.val = 0 + 1 ∧ State.reset.sp.val = 0 := by decide
theorem witness_CallPushesTheReturnAddress : (withStack 47 0).sp.val < 48 ∧ (withStack 48 0).sp.val = 48 := by decide
theorem witness_RetAfterCallReturns : (withStack 47 0).sp.val < 48 := by decide
theorem witness_AddByteWrapsAndFlagsByParameter : State.reset.params.addImmSetsVF = false ∧
    otherParams.params.addImmSetsVF = true ∧ (0xE : RegIdx) ≠ 0xF := by decide
theorem witness_FlaggedOperations : (0 : RegIdx) ≠ 0xF ∧ (0xE : RegIdx) ≠ 0xF := by decide
theorem witness_KeySkips : ((withRegs [(5, 0xF)]).v 5).toNat = (0xF : KeyIdx).toNat ∧
    0xF < ((withRegs [(5, 0x10)]).v 5).toNat := by decide
theorem witness_LdVxKCommitsOrWaits : (State.reset.setKey 0 true).key 0 = true ∧
    (∀ j : KeyIdx, j.toNat < (0 : KeyIdx).toNat → (State.reset.setKey 0 true).key j = false) ∧
    ∀ k, State.reset.key k = false := by decide
theorem witness_UnreadRegistersDoNotMatter : (1 : RegIdx) ∉ readRegs (.shr 1 0) ∧
    (0xF : RegIdx) ∉ readRegs (.addReg 1 2) ∧ (0 : RegIdx) ∉ readRegs .ret := by decide
theorem witness_IndexAndKeyLatchAreInert : ∃ t, step (State.reset.placeWord 0x22AE) = .next t := ⟨_, rfl⟩
theorem witness_FaultsAreExactAndPrecise : State.reset.status = .run ∧
    faultOf .ret State.reset = some .stackUnderflow ∧ faultOf .ret (withStack 1 0) = none ∧
    faultOf (.call 0) (withStack 48 0) = some .stackOverflow ∧
    faultOf (.skp 5) (withRegs [(5, 0x10)]) = some .keyIndexOutOfRange ∧
    faultOf (.skp 5) (withRegs [(5, 0xF)]) = none := by decide
theorem witness_StepAdvancesPcByClass : ∃ s t : State, s.status = .run ∧ s.stopped = false ∧ s.fetch = some 0x3005 ∧
    decode 0x3005 = .instr (.seByte 0 5) ∧ step s = .next t ∧ pcClass (.seByte 0 5) = .skip :=
  ⟨State.reset.placeWord 0x3005, _, by decide, by decide, by decide, by decide, rfl, rfl⟩
theorem witness_StepAdvancesPcByClass_ordinary : ∃ s t : State, s.status = .run ∧ s.stopped = false ∧
    s.fetch = some 0x6015 ∧ decode 0x6015 = .instr (.ldByte 0 0x15) ∧ step s = .next t ∧
    pcClass (.ldByte 0 0x15) = .ordinary :=
  ⟨State.reset.placeWord 0x6015, _, by decide, by decide, by decide, by decide, rfl, rfl⟩
theorem witness_OnlyCallAndRetMoveTheStack : ∃ s t : State, step s = .next t ∧ t.sp ≠ s.sp ∧ (0 : Fin 48).val < s.sp.val :=
  ⟨(withStack 1 0).placeWord 0x2300, _, rfl, by decide, by decide⟩
theorem witness_TimersFallByTheTicks : ∃ t, (∀ e ∈ [Event.env .timerTick, .env (.setKey 3 true), .env .timerTick],
    e ≠ .core ∧ e ≠ .env .reset) ∧
    runEvents [.env .timerTick, .env (.setKey 3 true), .env .timerTick] State.reset = .next t := ⟨_, by decide, rfl⟩
theorem witness_ASuccessfulEndIsStable : ∃ t, atSelfJump.SuccessEnd ∧ atSelfJump.started = true ∧
    (∀ e ∈ [Event.core, .core], e ≠ .env .reset) ∧ runEvents [.core, .core] atSelfJump = .next t :=
  ⟨_, ⟨rfl, rfl, 0x1200, 0x200, by decide, by decide, by decide⟩, rfl, by decide, rfl⟩

end Sys2Proof.Tests
end

section
/-! SUPPORT. Decode and encode agree, the opcode map decides, and how many words decode (spec/30_encoding.md
sections 1 to 4). The one idea: a row of the map is a family and a function code, so a word selects it exactly when the
word is put together, in the row's shape, from that code and the word's own operand fields. -/

namespace Sys2Proof.Encoding

open Sys2Proof Sys2Proof.Laws

/-! ### Decode after encode -/

/-- The decoder gives back the instruction whose word it reads (R72, R77). -/
theorem decode_encode (i : Instr) : decode (encode i) = .instr i := by
  cases i with
  | ret => rfl
  | jp nnn | call nnn | jpV0 nnn => simp [encode, decode]
  | seByte x nn | sneByte x nn | ldByte x nn | addByte x nn | rnd x nn => simp [encode, decode]
  | seReg x y | sneReg x y => simp [encode, decode]
  | ldReg x y | or x y | and x y | xor x y | addReg x y | sub x y | shr x y | subn x y | shl x y =>
    simp [encode, decode, decodeAlu]
  | skp x | sknp x => simp [encode, decode, decodeKey]
  | ldVxDt x | ldVxK x | ldDtVx x | ldStVx x => simp [encode, decode, decodeMisc]

theorem decode_of_encode {i : Instr} {w : Word} (h : encode i = w) : decode w = .instr i := h ▸ decode_encode i

/-- The byte decoder on a word's two bytes in memory order is the decoder on the word. -/
theorem decodeBytes_bytesOfWord (w : Word) (rest : List Byte) :
    decodeBytes ((bytesOfWord w).1 :: (bytesOfWord w).2 :: rest) = some (decode w, rest) := by
  rw [decodeBytes, wordOfBytes_bytesOfWord]

/-! ### A word from its fields, in the shape its code asks for -/

section Shapes
variable {w : Word} {f n : BitVec 4} {nn : Byte}

theorem encA_of_fields (hf : fieldF w = f) : encA f (fieldNNN w) = w := hf ▸ encA_fields w

theorem encXI_of_fields (hf : fieldF w = f) : encXI f (fieldX w) (fieldNN w) = w := hf ▸ encXI_fields w

theorem encXF_of_fields (hf : fieldF w = f) (hnn : fieldNN w = nn) : encXI f (fieldX w) nn = w :=
  hnn ▸ encXI_of_fields hf

theorem encXY_of_fields (hf : fieldF w = f) (hn : fieldN w = n) : encXY f (fieldX w) (fieldY w) n = w := by
  subst hf hn
  exact encXY_fields w

end Shapes

/-! ### Encode after decode -/

section Inversion
variable {w : Word} {i : Instr}

theorem encode_of_decodeAlu (hf : fieldF w = 0x8) (h : decodeAlu w = .instr i) : encode i = w := by
  unfold decodeAlu at h
  split at h
  case h_10 => cases h
  all_goals
    cases h
    exact encXY_of_fields hf ‹_›

theorem encode_of_decodeKey (hf : fieldF w = 0xE) (h : decodeKey w = .instr i) : encode i = w := by
  unfold decodeKey at h
  split at h
  case h_3 => cases h
  all_goals
    cases h
    exact encXF_of_fields hf ‹_›

theorem encode_of_decodeMisc (hf : fieldF w = 0xF) (h : decodeMisc w = .instr i) : encode i = w := by
  unfold decodeMisc at h
  split at h
  case h_5 => cases h
  all_goals
    cases h
    exact encXF_of_fields hf ‹_›

/-- A decoded instruction is the one its word encodes, but for RET, of which the word shows the family and the low byte
only (R77; D5). -/
theorem encode_or_ret_of_decode (h : decode w = .instr i) :
    encode i = w ∨ i = .ret ∧ fieldF w = 0x0 ∧ fieldNN w = 0xEE := by
  unfold decode at h
  split at h
  case h_1 hf =>
    split at h
    next hnn => cases h; exact .inr ⟨rfl, hf, hnn⟩
    next => cases h
  case h_2 hf | h_3 hf | h_11 hf => cases h; exact .inl (encA_of_fields hf)
  case h_4 hf | h_5 hf | h_7 hf | h_8 hf | h_12 hf => cases h; exact .inl (encXI_of_fields hf)
  case h_6 hf | h_10 hf =>
    split at h
    next hn => cases h; exact .inl (encXY_of_fields hf hn)
    next => cases h
  case h_9 hf => exact .inl (encode_of_decodeAlu hf h)
  case h_13 hf => exact .inl (encode_of_decodeKey hf h)
  case h_14 hf => exact .inl (encode_of_decodeMisc hf h)
  case h_15 => cases h

end Inversion

/-! ### The rows by shape -/

/-- The row of a family whose every word is an instruction (shapes `A` and `XI`). -/
def rowA (f : BitVec 4) : OpcodeRow := ⟨0xF000, encA f 0⟩
/-- The row of a family and a function nibble (shape `XY`). -/
def rowXY (f n : BitVec 4) : OpcodeRow := ⟨0xF00F, encXY f 0 0 n⟩
/-- The row of a family and a function byte (shape `XF`). -/
def rowXF (f : BitVec 4) (nn : Byte) : OpcodeRow := ⟨0xF0FF, encXI f 0 nn⟩

/-- The opcode map, each row by its shape. -/
theorem opcodeMap_eq_shapes : opcodeMap =
    [rowXF 0x0 0xEE, rowA 0x1, rowA 0x2, rowA 0x3, rowA 0x4, rowXY 0x5 0x0, rowA 0x6, rowA 0x7,
     rowXY 0x8 0x0, rowXY 0x8 0x1, rowXY 0x8 0x2, rowXY 0x8 0x3, rowXY 0x8 0x4, rowXY 0x8 0x5, rowXY 0x8 0x6,
     rowXY 0x8 0x7, rowXY 0x8 0xE, rowXY 0x9 0x0, rowA 0xB, rowA 0xC, rowXF 0xE 0x9E, rowXF 0xE 0xA1,
     rowXF 0xF 0x07, rowXF 0xF 0x0A, rowXF 0xF 0x15, rowXF 0xF 0x18] := by decide

section Rows
variable {w : Word} {f n : BitVec 4} {nn : Byte}

theorem rowA_selects : (rowA f).Selects w ↔ fieldF w = f := by
  have hm : w &&& 0xF000 = encA (fieldF w) 0 := by
    conv_lhs => rw [← encA_fields w]
    exact EncodeInRow.selects_encA _ _
  refine ⟨fun h => ?_, fun h => h ▸ hm⟩
  simpa [rowA] using congrArg fieldF (hm.symm.trans h)

theorem rowXY_selects : (rowXY f n).Selects w ↔ fieldF w = f ∧ fieldN w = n := by
  have hm : w &&& 0xF00F = encXY (fieldF w) 0 0 (fieldN w) := by
    conv_lhs => rw [← encXY_fields w]
    exact EncodeInRow.selects_encXY _ _ _ _
  refine ⟨fun h => ?_, fun ⟨hf, hn⟩ => hf ▸ hn ▸ hm⟩
  have he := hm.symm.trans h
  exact ⟨by simpa [rowXY] using congrArg fieldF he, by simpa [rowXY] using congrArg fieldN he⟩

theorem rowXF_selects : (rowXF f nn).Selects w ↔ fieldF w = f ∧ fieldNN w = nn := by
  have hm : w &&& 0xF0FF = encXI (fieldF w) 0 (fieldNN w) := by
    conv_lhs => rw [← encXI_fields w]
    exact EncodeInRow.selects_encXF _ _ _
  refine ⟨fun h => ?_, fun ⟨hf, hnn⟩ => hf ▸ hnn ▸ hm⟩
  have he := hm.symm.trans h
  exact ⟨by simpa [rowXF] using congrArg fieldF he, by simpa [rowXF] using congrArg fieldNN he⟩

end Rows

/-- The word encoded from an instruction selects the instruction's row, which is one of the map's. -/
theorem encode_in_row (i : Instr) : EncodeInRow.Statement i := by
  cases i with
  | ret => exact EncodeInRow.ret
  | jp nnn => exact EncodeInRow.jp nnn
  | call nnn => exact EncodeInRow.call nnn
  | seByte x nn => exact EncodeInRow.seByte x nn
  | sneByte x nn => exact EncodeInRow.sneByte x nn
  | seReg x y => exact EncodeInRow.seReg x y
  | ldByte x nn => exact EncodeInRow.ldByte x nn
  | addByte x nn => exact EncodeInRow.addByte x nn
  | ldReg x y => exact EncodeInRow.ldReg x y
  | or x y => exact EncodeInRow.or x y
  | and x y => exact EncodeInRow.and x y
  | xor x y => exact EncodeInRow.xor x y
  | addReg x y => exact EncodeInRow.addReg x y
  | sub x y => exact EncodeInRow.sub x y
  | shr x y => exact EncodeInRow.shr x y
  | subn x y => exact EncodeInRow.subn x y
  | shl x y => exact EncodeInRow.shl x y
  | sneReg x y => exact EncodeInRow.sneReg x y
  | jpV0 nnn => exact EncodeInRow.jpV0 nnn
  | rnd x nn => exact EncodeInRow.rnd x nn
  | skp x => exact EncodeInRow.skp x
  | sknp x => exact EncodeInRow.sknp x
  | ldVxDt x => exact EncodeInRow.ldVxDt x
  | ldVxK x => exact EncodeInRow.ldVxK x
  | ldDtVx x => exact EncodeInRow.ldDtVx x
  | ldStVx x => exact EncodeInRow.ldStVx x

/-! ### The map decides the decoder -/

section Map
variable {w : Word} {i : Instr} {r r' : OpcodeRow}

theorem decode_eq_ret_iff : decode w = .instr .ret ↔ (rowXF 0x0 0xEE).Selects w := by
  rw [rowXF_selects]
  constructor
  · intro h
    obtain rfl | ⟨-, hfields⟩ := encode_or_ret_of_decode h
    · decide
    · exact hfields
  · rintro ⟨hf, hnn⟩
    simp [decode, hf, hnn]

theorem encode_of_decode (h : decode w = .instr i) (hi : i ≠ .ret) : encode i = w :=
  (encode_or_ret_of_decode h).resolve_right fun hret => hi hret.1

theorem row_mem_opcodeMap (i : Instr) : i.row ∈ opcodeMap := (encode_in_row i).1

theorem row_selects_of_decode (h : decode w = .instr i) : i.row.Selects w := by
  obtain rfl | ⟨rfl, -⟩ := encode_or_ret_of_decode h
  · exact (encode_in_row i).2
  · exact decode_eq_ret_iff.1 h

/-- A word that selects a row decodes to an instruction of that row, with the word's own fields as operands. -/
theorem exists_decode_of_selects (w : Word) :
    ∀ r ∈ opcodeMap, r.Selects w → ∃ i : Instr, i.row = r ∧ decode w = .instr i := by
  rw [opcodeMap_eq_shapes]
  simp only [List.forall_mem_cons, rowA_selects, rowXY_selects, rowXF_selects]
  exact ⟨
    fun hfields => ⟨.ret, rfl, decode_eq_ret_iff.2 (rowXF_selects.2 hfields)⟩,
    fun hf => ⟨.jp (fieldNNN w), rfl, decode_of_encode (encA_of_fields hf)⟩,
    fun hf => ⟨.call (fieldNNN w), rfl, decode_of_encode (encA_of_fields hf)⟩,
    fun hf => ⟨.seByte (fieldX w) (fieldNN w), rfl, decode_of_encode (encXI_of_fields hf)⟩,
    fun hf => ⟨.sneByte (fieldX w) (fieldNN w), rfl, decode_of_encode (encXI_of_fields hf)⟩,
    fun ⟨hf, hn⟩ => ⟨.seReg (fieldX w) (fieldY w), rfl, decode_of_encode (encXY_of_fields hf hn)⟩,
    fun hf => ⟨.ldByte (fieldX w) (fieldNN w), rfl, decode_of_encode (encXI_of_fields hf)⟩,
    fun hf => ⟨.addByte (fieldX w) (fieldNN w), rfl, decode_of_encode (encXI_of_fields hf)⟩,
    fun ⟨hf, hn⟩ => ⟨.ldReg (fieldX w) (fieldY w), rfl, decode_of_encode (encXY_of_fields hf hn)⟩,
    fun ⟨hf, hn⟩ => ⟨.or (fieldX w) (fieldY w), rfl, decode_of_encode (encXY_of_fields hf hn)⟩,
    fun ⟨hf, hn⟩ => ⟨.and (fieldX w) (fieldY w), rfl, decode_of_encode (encXY_of_fields hf hn)⟩,
    fun ⟨hf, hn⟩ => ⟨.xor (fieldX w) (fieldY w), rfl, decode_of_encode (encXY_of_fields hf hn)⟩,
    fun ⟨hf, hn⟩ => ⟨.addReg (fieldX w) (fieldY w), rfl, decode_of_encode (encXY_of_fields hf hn)⟩,
    fun ⟨hf, hn⟩ => ⟨.sub (fieldX w) (fieldY w), rfl, decode_of_encode (encXY_of_fields hf hn)⟩,
    fun ⟨hf, hn⟩ => ⟨.shr (fieldX w) (fieldY w), rfl, decode_of_encode (encXY_of_fields hf hn)⟩,
    fun ⟨hf, hn⟩ => ⟨.subn (fieldX w) (fieldY w), rfl, decode_of_encode (encXY_of_fields hf hn)⟩,
    fun ⟨hf, hn⟩ => ⟨.shl (fieldX w) (fieldY w), rfl, decode_of_encode (encXY_of_fields hf hn)⟩,
    fun ⟨hf, hn⟩ => ⟨.sneReg (fieldX w) (fieldY w), rfl, decode_of_encode (encXY_of_fields hf hn)⟩,
    fun hf => ⟨.jpV0 (fieldNNN w), rfl, decode_of_encode (encA_of_fields hf)⟩,
    fun hf => ⟨.rnd (fieldX w) (fieldNN w), rfl, decode_of_encode (encXI_of_fields hf)⟩,
    fun ⟨hf, hnn⟩ => ⟨.skp (fieldX w), rfl, decode_of_encode (encXF_of_fields hf hnn)⟩,
    fun ⟨hf, hnn⟩ => ⟨.sknp (fieldX w), rfl, decode_of_encode (encXF_of_fields hf hnn)⟩,
    fun ⟨hf, hnn⟩ => ⟨.ldVxDt (fieldX w), rfl, decode_of_encode (encXF_of_fields hf hnn)⟩,
    fun ⟨hf, hnn⟩ => ⟨.ldVxK (fieldX w), rfl, decode_of_encode (encXF_of_fields hf hnn)⟩,
    fun ⟨hf, hnn⟩ => ⟨.ldDtVx (fieldX w), rfl, decode_of_encode (encXF_of_fields hf hnn)⟩,
    fun ⟨hf, hnn⟩ => ⟨.ldStVx (fieldX w), rfl, decode_of_encode (encXF_of_fields hf hnn)⟩,
    List.forall_mem_nil _⟩

theorem decode_ne_unknown_iff : decode w ≠ .unknown ↔ ∃ r ∈ opcodeMap, r.Selects w := by
  constructor
  · intro h
    cases hd : decode w with
    | unknown => exact absurd hd h
    | instr i => exact ⟨i.row, row_mem_opcodeMap i, row_selects_of_decode hd⟩
  · rintro ⟨r, hr, hsel⟩
    obtain ⟨i, -, hd⟩ := exists_decode_of_selects w r hr hsel
    simp [hd]

/-- No word selects two rows: it decodes to one instruction, which has one row. -/
theorem row_unique (hr : r ∈ opcodeMap) (hr' : r' ∈ opcodeMap) (h : r.Selects w) (h' : r'.Selects w) : r = r' := by
  obtain ⟨i, rfl, hi⟩ := exists_decode_of_selects w r hr h
  obtain ⟨j, rfl, hj⟩ := exists_decode_of_selects w r' hr' h'
  obtain rfl : i = j := by simpa [hi] using hj
  rfl

end Map

/-! ### How many words decode -/

/-- Counting numbers below `2 ^ n` by the word each stands for is counting words. -/
theorem count_ofNat_eq_card {n : Nat} (p : BitVec n → Prop) [DecidablePred p] :
    Nat.count (fun k => p (BitVec.ofNat n k)) (2 ^ n) = (Finset.univ.filter p).card := by
  rw [Nat.count_eq_card_filter_range]
  refine Finset.card_nbij' (BitVec.ofNat n) BitVec.toNat ?_ ?_ ?_ ?_
  · exact fun k hk => by simpa using (Finset.mem_filter.1 hk).2
  · exact fun w hw => by simpa [w.isLt] using hw
  · exact fun k hk => Nat.mod_eq_of_lt (Finset.mem_range.1 (Finset.mem_filter.1 hk).1)
  · exact fun w _ => by simp

theorem card_bitVec (n : Nat) : Fintype.card (BitVec n) = 2 ^ n := by
  rw [Fintype.card_congr BitVec.equivFin.toEquiv, Fintype.card_fin]

/-- The words that select a row. -/
def rowWords (r : OpcodeRow) : Finset Word := Finset.univ.filter r.Selects

@[simp] theorem mem_rowWords {r : OpcodeRow} {w : Word} : w ∈ rowWords r ↔ r.Selects w := by simp [rowWords]

section Card
variable (f n : BitVec 4) (nn : Byte)

/-- One word for each NNN. -/
@[simp] theorem card_rowWords_rowA : (rowWords (rowA f)).card = 4096 := by
  have himage : rowWords (rowA f) = Finset.univ.image (encA f) := by
    ext w
    simp only [mem_rowWords, rowA_selects, Finset.mem_image, Finset.mem_univ, true_and]
    exact ⟨fun hf => ⟨_, encA_of_fields hf⟩, by rintro ⟨nnn, rfl⟩; simp⟩
  have hinj : Function.Injective (encA f) := Function.LeftInverse.injective (g := fieldNNN) (by intro; simp)
  rw [himage, Finset.card_image_of_injective _ hinj, Finset.card_univ, card_bitVec]
  rfl

/-- One word for each X and Y. -/
@[simp] theorem card_rowWords_rowXY : (rowWords (rowXY f n)).card = 256 := by
  have himage : rowWords (rowXY f n) = Finset.univ.image fun p : RegIdx × RegIdx => encXY f p.1 p.2 n := by
    ext w
    simp only [mem_rowWords, rowXY_selects, Finset.mem_image, Finset.mem_univ, true_and]
    exact ⟨fun ⟨hf, hn⟩ => ⟨(_, _), encXY_of_fields hf hn⟩, by rintro ⟨p, rfl⟩; simp⟩
  have hinj : Function.Injective fun p : RegIdx × RegIdx => encXY f p.1 p.2 n :=
    Function.LeftInverse.injective (g := fun w => (fieldX w, fieldY w)) (by intro; simp)
  rw [himage, Finset.card_image_of_injective _ hinj, Finset.card_univ, Fintype.card_prod, card_bitVec]
  rfl

/-- One word for each X. -/
@[simp] theorem card_rowWords_rowXF : (rowWords (rowXF f nn)).card = 16 := by
  have himage : rowWords (rowXF f nn) = Finset.univ.image fun x => encXI f x nn := by
    ext w
    simp only [mem_rowWords, rowXF_selects, Finset.mem_image, Finset.mem_univ, true_and]
    exact ⟨fun ⟨hf, hnn⟩ => ⟨_, encXF_of_fields hf hnn⟩, by rintro ⟨x, rfl⟩; simp⟩
  have hinj : Function.Injective fun x => encXI f x nn :=
    Function.LeftInverse.injective (g := fieldX) (by intro; simp)
  rw [himage, Finset.card_image_of_injective _ hinj, Finset.card_univ, card_bitVec]
  rfl

end Card

/-- The decodable words, row by row: the rows do not overlap. -/
theorem card_decodable_eq_sum :
    (Finset.univ.filter fun w : Word => decode w ≠ .unknown).card =
      (opcodeMap.map fun r => (rowWords r).card).sum := by
  have hunion : (Finset.univ.filter fun w : Word => decode w ≠ .unknown) = opcodeMap.toFinset.biUnion rowWords := by
    ext w
    simp [decode_ne_unknown_iff]
  have hdisjoint : (opcodeMap.toFinset : Set OpcodeRow).PairwiseDisjoint rowWords := by
    intro r hr r' hr' hne
    rw [Function.onFun, Finset.disjoint_left]
    intro w hw hw'
    exact hne (row_unique (by simpa using hr) (by simpa using hr') (mem_rowWords.1 hw) (mem_rowWords.1 hw'))
  have hnodup : opcodeMap.Nodup := by decide
  rw [hunion, Finset.card_biUnion hdisjoint, List.sum_toFinset _ hnodup]

/-- Eight whole families, eleven rows by a nibble and seven by a byte (R79). -/
theorem card_decodable : (Finset.univ.filter fun w : Word => decode w ≠ .unknown).card = 35696 := by
  rw [card_decodable_eq_sum, opcodeMap_eq_shapes]
  simp

/-- How many have `p`, from how many have not. The sum is taken here, over a `p` that does not compute: Lean would
evaluate a sum of two closed counts word by word. -/
theorem card_filter_of_card_filter_not {α : Type} [Fintype α] (p : α → Prop) [DecidablePred p]
    [DecidablePred fun a => ¬ p a] {k m : Nat} (hnot : (Finset.univ.filter fun a => ¬ p a).card = k)
    (htotal : Fintype.card α = m + k) : (Finset.univ.filter p).card = m := by
  have hsum := Finset.card_filter_add_card_filter_not (s := Finset.univ) p
  rw [hnot, Finset.card_univ, htotal] at hsum
  exact Nat.add_right_cancel hsum

theorem card_unknown : (Finset.univ.filter fun w : Word => decode w = .unknown).card = 29840 :=
  card_filter_of_card_filter_not _ card_decodable (card_bitVec 16)

/-! ### Fields by mask and shift -/

/-- A mask of `k` ones moved up by `j` and the shift back by `j` take `k` bits from bit `j` on. -/
theorem and_mask_shiftRight (a j k : Nat) : (a &&& (2 ^ k - 1) <<< j) >>> j = a / 2 ^ j % 2 ^ k := by
  rw [Nat.shiftRight_and_distrib, Nat.shiftLeft_shiftRight, Nat.and_two_pow_sub_one_eq_mod,
    Nat.shiftRight_eq_div_pow]

/-! ### The obligations of the encoding family -/

/-- Settles O1, by cases on the instruction: its shape's fields are read back, and its two bytes are its word. -/
theorem decodeOfEncodeIsTheInstruction : Obligations.DecodeOfEncodeIsTheInstruction := by
  unfold Obligations.DecodeOfEncodeIsTheInstruction
  intro i
  refine ⟨decode_encode i, fun rest => ?_⟩
  rw [decodeBytes_bytesOfWord, decode_encode]

/-- Settles O2, by inverting the decoder: each branch fixes a family and a code, and the word is put together from them
and its operand fields. -/
theorem encodeOfDecodeIsTheWord : Obligations.EncodeOfDecodeIsTheWord := by
  unfold Obligations.EncodeOfDecodeIsTheWord
  exact ⟨fun _ _ => encode_of_decode, fun _ => decode_eq_ret_iff⟩

/-- Settles O3: selecting a row and decoding to an instruction of it are the same. -/
theorem opcodeMapDecides : Obligations.OpcodeMapDecides := by
  unfold Obligations.OpcodeMapDecides
  refine ⟨rfl, fun w => ⟨?_, fun i h => ⟨row_mem_opcodeMap i, row_selects_of_decode h⟩,
    fun _ hr _ hr' => row_unique hr hr'⟩⟩
  simpa using not_congr (decode_ne_unknown_iff (w := w))

/-- Settles O5, by summing the sizes of the rows, which do not overlap. -/
theorem decodableWordsAreCounted : Obligations.DecodableWordsAreCounted := by
  unfold Obligations.DecodableWordsAreCounted
  exact ⟨(count_ofNat_eq_card fun w : Word => decode w ≠ .unknown).trans card_decodable,
    (count_ofNat_eq_card fun w : Word => decode w = .unknown).trans card_unknown⟩

/-- Settles O4: each mask is a run of ones at the field's place. -/
theorem fieldsAreMasksAndShifts : Obligations.FieldsAreMasksAndShifts := by
  unfold Obligations.FieldsAreMasksAndShifts
  intro w
  refine ⟨?_, ?_, ?_, ?_, ?_, ?_⟩
  · rw [fieldF_toNat, Nat.shiftRight_eq_div_pow]
  · exact (fieldX_toNat w).trans (and_mask_shiftRight w.toNat 8 4).symm
  · exact (fieldY_toNat w).trans (and_mask_shiftRight w.toNat 4 4).symm
  · exact (fieldN_toNat w).trans (Nat.and_two_pow_sub_one_eq_mod w.toNat 4).symm
  · exact (fieldNN_toNat w).trans (Nat.and_two_pow_sub_one_eq_mod w.toNat 8).symm
  · exact (fieldNNN_toNat w).trans (Nat.and_two_pow_sub_one_eq_mod w.toNat 12).symm

end Sys2Proof.Encoding
end

section
/-! SUPPORT. A step that fetches is the execute phase after the advance phase (spec/40_sequencer.md section 1). -/

namespace Sys2Proof.Sequencer

open Sys2Proof Sys2Proof.Machine

section Fetched
variable {s : State} {w : Word} {i : Instr}

/-- Running and not stopped, the core executes what the fetched word decodes to in the advanced state (R102 to R104). -/
theorem step_eq_execute (hrun : s.status = .run) (hgo : s.stopped = false) (hfetch : s.fetch = some w) :
    step s = execute (decode w) (s.advance w) := by
  have hturn : s.turn = .fetch := turn_eq_fetch.2 ⟨hrun, hgo⟩
  simp only [step, hturn, hfetch]

theorem step_eq_exec (hrun : s.status = .run) (hgo : s.stopped = false) (hfetch : s.fetch = some w)
    (hdecode : decode w = .instr i) : step s = exec i (s.advance w) := by
  rw [step_eq_execute hrun hgo hfetch, hdecode, execute]

end Fetched

/-- Addition of words is the spec's addition of numbers, brought back to 16 bits (R8). -/
theorem add_two_eq_ofNat (pc : Word) : pc + 2 = BitVec.ofNat 16 (pc.toNat + 2) := by
  rw [BitVec.ofNat_add, BitVec.ofNat_toNat, BitVec.setWidth_eq]
  rfl

/-- The advance phase over numbers: `pc` moves past the word, modulo 2^16 (R102, R103). -/
theorem advance_eq_ofNat (s : State) (w : Word) :
    s.advance w = { s with pc := BitVec.ofNat 16 (s.pc.toNat + 2), latch := ⟨s.pc, w⟩, started := true } := by
  rw [← add_two_eq_ofNat, State.advance]

/-- Settles O10: the step is `exec` after the advance phase, whose sum is taken over numbers. -/
theorem stepRunsTheDecodedInstruction : Obligations.StepRunsTheDecodedInstruction := by
  unfold Obligations.StepRunsTheDecodedInstruction
  intro s w i hrun hgo hfetch hdecode
  rw [step_eq_exec hrun hgo hfetch hdecode, advance_eq_ofNat]

end Sys2Proof.Sequencer
end

section
/-! SUPPORT. The frames of the operations that instructions share: the jump, taking a fault, push and pop. -/

namespace Sys2Proof.Frames

open Sys2Proof Sys2Proof.Machine

/-- Frames compose to the union of what the two moves may change. -/
theorem onlyChanges_append {ps qs : List Part} {s t u : State} (h : OnlyChanges ps s t) (h' : OnlyChanges qs t u) :
    OnlyChanges (ps ++ qs) s u :=
  onlyChanges_trans (onlyChanges_mono h fun _ => List.mem_append_left qs)
    (onlyChanges_mono h' fun _ => List.mem_append_right ps)

theorem onlyChanges_jump (s : State) (target : Word) : OnlyChanges [.pc] s (s.jump target) := by
  intro p hp
  cases p with
  | pc => exact absurd List.mem_cons_self hp
  | _ => rfl

theorem onlyChanges_raise (s : State) (c : Cause) : OnlyChanges [.status] s (s.raise c) := by
  intro p hp
  cases p with
  | status => exact absurd List.mem_cons_self hp
  | _ => rfl

/-- A push writes `sp` and the slot that was the next free one (spec/41_control_flow.md R122). -/
theorem onlyChanges_push {s t : State} {a : Word} (h : s.sp.val < 48) (hpush : s.push a = some t) :
    OnlyChanges [.sp, .slot ⟨s.sp.val, h⟩] s t := by
  obtain ⟨_, hpush'⟩ := (push_cases s a).resolve_left fun hfull => by omega
  obtain rfl := Option.some.inj (hpush.symm.trans hpush')
  intro p hp
  cases p with
  | sp => exact absurd List.mem_cons_self hp
  | slot j =>
    have hj : s.sp.val ≠ j.val := fun he => hp (by simp [he])
    exact Vector.getElem_set_ne h j.isLt hj
  | _ => rfl

/-- A pop writes `sp` only: the slot keeps its address (spec/41_control_flow.md R120; D20). -/
theorem onlyChanges_pop {s t : State} {a : Word} (hpop : s.pop = some (a, t)) : OnlyChanges [.sp] s t := by
  obtain ⟨-, hnone⟩ | ⟨n, _, -, hpop'⟩ := pop_cases s
  · cases hnone.symm.trans hpop
  · cases hpop.symm.trans hpop'
    intro p hp
    cases p with
    | sp => exact absurd List.mem_cons_self hp
    | _ => rfl

end Sys2Proof.Frames
end

section
/-! SUPPORT. RET, JP and CALL (spec/41_control_flow.md R120 to R122): each is a stack operation and a jump, or the fault
of the stack operation's one check. -/

namespace Sys2Proof.ControlFlow

open Sys2Proof Sys2Proof.Machine Sys2Proof.Frames

section Exec
variable {s s' : State} {nnn : Addr} {target : Word}

theorem exec_jp : exec (.jp nnn) s = .next (s.jump (zextAddr nnn)) := rfl

theorem exec_ret_of_pop_eq_some (hpop : s.pop = some (target, s')) : exec .ret s = .next (s'.jump target) := by
  simp only [exec, execRet, hpop]

theorem exec_ret_of_pop_eq_none (hpop : s.pop = none) : exec .ret s = .next (s.raise .stackUnderflow) := by
  simp only [exec, execRet, hpop]

theorem exec_call_of_push_eq_some (hpush : s.push s.pc = some s') :
    exec (.call nnn) s = .next (s'.jump (zextAddr nnn)) := by
  simp only [exec, execCall, hpush]

theorem exec_call_of_push_eq_none (hpush : s.push s.pc = none) :
    exec (.call nnn) s = .next (s.raise .stackOverflow) := by
  simp only [exec, execCall, hpush]

end Exec

/-- Settles O28, by the two cases of the pop: it gives the newest slot, to which RET then jumps, or the stack is
empty. -/
theorem retPopsTheReturnAddress : Obligations.RetPopsTheReturnAddress := by
  unfold Obligations.RetPopsTheReturnAddress
  intro s
  obtain ⟨hempty, hpop⟩ | ⟨m, _, hsp, hpop⟩ := pop_cases s
  · refine ⟨fun n _ hn => by omega, fun _ => ?_⟩
    exact ⟨_, exec_ret_of_pop_eq_none hpop, State.raise_status s _, onlyChanges_raise s _⟩
  · refine ⟨fun n _ hn => ?_, fun h0 => by omega⟩
    obtain rfl : m = n := by omega
    have hframe := onlyChanges_append (onlyChanges_pop hpop) (onlyChanges_jump _ s.stack[m])
    exact ⟨_, exec_ret_of_pop_eq_some hpop, rfl, rfl, onlyChanges_mono hframe (by simp)⟩

/-- Settles O30, by the two cases of the push: it stores `pc` in the next free slot, after which CALL jumps, or the
stack is full. -/
theorem callPushesTheReturnAddress : Obligations.CallPushesTheReturnAddress := by
  unfold Obligations.CallPushesTheReturnAddress
  intro nnn s
  obtain ⟨hfull, hpush⟩ | ⟨hlt, hpush⟩ := push_cases s s.pc
  · refine ⟨fun h => by omega, fun _ => ?_⟩
    exact ⟨_, exec_call_of_push_eq_none hpush, State.raise_status s _, onlyChanges_raise s _⟩
  · refine ⟨fun h => ?_, fun h48 => by omega⟩
    have hslot : (s.stack.set s.sp.val s.pc hlt)[s.sp.val] = s.pc := Vector.getElem_set_self hlt
    have hframe := onlyChanges_append (onlyChanges_push h hpush) (onlyChanges_jump _ (zextAddr nnn))
    exact ⟨_, exec_call_of_push_eq_some hpush, hslot, rfl, zextAddr_toNat nnn, onlyChanges_mono hframe (by simp)⟩

/-- Settles O29: JP is the jump to its zero-extended address. -/
theorem jpGoesToTheAddress : Obligations.JpGoesToTheAddress := by
  unfold Obligations.JpGoesToTheAddress
  intro nnn s
  exact ⟨_, exec_jp, zextAddr_toNat nnn, onlyChanges_jump s _⟩

end Sys2Proof.ControlFlow
end

section
/-! SUPPORT. The conditional skips on registers (spec/42_skips.md): each is `skipIf` on an equality of two bytes or on
its negation, and `skipIf` writes `pc` only. -/

namespace Sys2Proof.Skips

open Sys2Proof Sys2Proof.Machine

theorem onlyChanges_skipIf (s : State) (c : Bool) : OnlyChanges [.pc] s (s.skipIf c) := by
  intro p hp
  cases c with
  | false => cases p <;> rfl
  | true =>
    cases p with
    | pc => exact absurd List.mem_cons_self hp
    | _ => rfl

section Condition
variable (s : State) (a b : Byte)

theorem skipIf_beq_pc : (s.skipIf (a == b)).pc = if a = b then s.pc + 2 else s.pc := by
  simp only [State.skipIf_pc, beq_iff_eq]

/-- The complement of `skipIf_beq_pc`: the two branches change places (R131). -/
theorem skipIf_bne_pc : (s.skipIf (a != b)).pc = if a = b then s.pc else s.pc + 2 := by
  simp only [State.skipIf_pc, bne_iff_ne, ite_not]

end Condition

section Exec
variable (x : RegIdx) (nn : Byte) (s : State)

theorem exec_seByte : exec (.seByte x nn) s = .next (s.skipIf (s.v x == nn)) := rfl

theorem exec_sneByte : exec (.sneByte x nn) s = .next (s.skipIf (s.v x != nn)) := rfl

end Exec

/-- Settles O33: SE and SNE are `skipIf` on the one equality and on its negation. -/
theorem byteSkipsAreComplements : Obligations.ByteSkipsAreComplements := by
  unfold Obligations.ByteSkipsAreComplements
  intro x nn s
  exact ⟨⟨_, exec_seByte x nn s, skipIf_beq_pc s _ _, onlyChanges_skipIf s _⟩,
    ⟨_, exec_sneByte x nn s, skipIf_bne_pc s _ _, onlyChanges_skipIf s _⟩⟩

end Sys2Proof.Skips
end

section
/-! SUPPORT. The write of one register (spec/00_scope.md R9): what it leaves there, and its frame. -/

namespace Sys2Proof.Frames

open Sys2Proof Sys2Proof.Machine

theorem setV_v_same (s : State) (x : RegIdx) (b : Byte) : (s.setV x b).v x = b := by
  rw [State.setV_v, if_pos rfl]

theorem onlyChanges_setV (s : State) (x : RegIdx) (b : Byte) : OnlyChanges [.reg x] s (s.setV x b) := by
  intro p hp
  cases p with
  | reg r =>
    have hr : r ≠ x := fun he => hp (by simp [he])
    exact (State.setV_v s x b r).trans (if_neg hr)
  | _ => rfl

end Sys2Proof.Frames
end

section
/-! SUPPORT. The immediate operations (spec/43_immediate.md). -/

namespace Sys2Proof.Immediate

open Sys2Proof Sys2Proof.Machine Sys2Proof.Frames

theorem exec_ldByte (x : RegIdx) (nn : Byte) (s : State) : exec (.ldByte x nn) s = .next (s.setV x nn) := rfl

/-- Settles O35: LD Vx, byte is the write of one register, and that write's frame is the register. -/
theorem ldByteWritesTheByte : Obligations.LdByteWritesTheByte := by
  unfold Obligations.LdByteWritesTheByte
  intro x nn s
  exact ⟨_, exec_ldByte x nn s, setV_v_same s x nn, onlyChanges_setV s x nn⟩

end Sys2Proof.Immediate
end

section
/-! SUPPORT. The register-register operations without a flag (spec/44_alu.md R151 to R154): each is one write of one
register, its operands read before. -/

namespace Sys2Proof.Alu

open Sys2Proof Sys2Proof.Machine Sys2Proof.Frames

/-- What an instruction does that is the write of one register: the byte stands there, and nothing else changes, VF
neither unless it is the register. -/
theorem next_of_exec_eq_setV {i : Instr} {s : State} {x : RegIdx} {b : Byte} (h : exec i s = .next (s.setV x b)) :
    ∃ t, exec i s = .next t ∧ t.v x = b ∧ OnlyChanges [.reg x] s t :=
  ⟨_, h, setV_v_same s x b, onlyChanges_setV s x b⟩

section Exec
variable (x y : RegIdx) (s : State)

theorem exec_ldReg : exec (.ldReg x y) s = .next (s.setV x (s.v y)) := rfl

theorem exec_or : exec (.or x y) s = .next (s.setV x (s.v x ||| s.v y)) := rfl

theorem exec_and : exec (.and x y) s = .next (s.setV x (s.v x &&& s.v y)) := rfl

theorem exec_xor : exec (.xor x y) s = .next (s.setV x (s.v x ^^^ s.v y)) := rfl

end Exec

/-- Settles O38: LD Vx, Vy is the write of VY's byte to VX. -/
theorem ldRegCopiesTheRegister : Obligations.LdRegCopiesTheRegister := by
  unfold Obligations.LdRegCopiesTheRegister
  intro x y s
  exact next_of_exec_eq_setV (exec_ldReg x y s)

/-- Settles O39: each of the three is the write of its bitwise result to VX, with no write of VF after it. -/
theorem logicOperationsWriteVxOnly : Obligations.LogicOperationsWriteVxOnly := by
  unfold Obligations.LogicOperationsWriteVxOnly
  intro x y s
  exact ⟨next_of_exec_eq_setV (exec_or x y s), next_of_exec_eq_setV (exec_and x y s),
    next_of_exec_eq_setV (exec_xor x y s)⟩

end Sys2Proof.Alu
end

section
/-! SUPPORT. The frames of a write of `status` and of a write of `DT`. -/

namespace Sys2Proof.Frames

open Sys2Proof Sys2Proof.Machine

theorem onlyChanges_with_status (s : State) (m : Status) : OnlyChanges [.status] s { s with status := m } := by
  intro p hp
  cases p with
  | status => exact absurd List.mem_cons_self hp
  | _ => rfl

theorem onlyChanges_with_dt (s : State) (b : Byte) : OnlyChanges [.dt] s { s with dt := b } := by
  intro p hp
  cases p with
  | dt => exact absurd List.mem_cons_self hp
  | _ => rfl

/-- The completion step of a wait is the write of the target register and then that of `status`
(spec/45_keys_timers.md R173). -/
theorem onlyChanges_completeWait (s : State) (x : RegIdx) (k : KeyIdx) :
    OnlyChanges [.reg x, .status] s (s.completeWait x k) :=
  onlyChanges_append (onlyChanges_setV s x (byteOfKey k)) (onlyChanges_with_status _ .run)

end Sys2Proof.Frames
end

section
/-! SUPPORT. The timer moves and the key wait (spec/45_keys_timers.md R172 to R174, R176). The wait turns on the one
decision `pickKey`, which gives a key exactly where it is the lowest pressed one and nothing exactly where none is
pressed. -/

namespace Sys2Proof.KeysTimers

open Sys2Proof Sys2Proof.Machine Sys2Proof.Frames

section Exec
variable {x : RegIdx} {k : KeyIdx} {s : State}

theorem exec_ldVxDt : exec (.ldVxDt x) s = .next (s.setV x s.dt) := rfl

theorem exec_ldDtVx : exec (.ldDtVx x) s = .next { s with dt := s.v x } := rfl

theorem exec_ldVxK_of_pickKey_eq_some (hpick : s.pickKey = some k) :
    exec (.ldVxK x) s = .next (s.setV x (byteOfKey k)) := by
  simp only [exec, execLdVxK, hpick]

theorem exec_ldVxK_of_pickKey_eq_none (hpick : s.pickKey = none) :
    exec (.ldVxK x) s = .next { s with status := .waitKey x } := by
  simp only [exec, execLdVxK, hpick]

/-- Waiting, not stopped, with a key to pick, the core completes the wait (R173; spec/40_sequencer.md R107). -/
theorem step_eq_completeWait (hwait : s.status = .waitKey x) (hgo : s.stopped = false) (hpick : s.pickKey = some k) :
    step s = .next (s.completeWait x k) :=
  step_eq_next.2 (.inr ⟨x, k, hwait, hgo, hpick, rfl⟩)

end Exec

/-- A register that holds a key's byte holds the key's index. -/
theorem toNat_of_eq_byteOfKey {b : Byte} {k : KeyIdx} (h : b = byteOfKey k) : b.toNat = k.toNat :=
  h ▸ byteOfKey_toNat k

/-- Settles O14: the lowest pressed key is the one picked, and completing the wait with it is two writes, of VX and of
`status`. -/
theorem waitCommitsTheLowestKey : Obligations.WaitCommitsTheLowestKey := by
  unfold Obligations.WaitCommitsTheLowestKey
  intro s x k hwait hgo hkey hlowest
  have hpick : s.pickKey = some k := pickKey_eq_some.2 ⟨hkey, hlowest⟩
  have hv : (s.completeWait x k).v x = byteOfKey k := setV_v_same s x (byteOfKey k)
  exact ⟨_, step_eq_completeWait hwait hgo hpick, toNat_of_eq_byteOfKey hv, State.completeWait_status s x k,
    onlyChanges_completeWait s x k⟩

/-- Settles O48, by the two answers of `pickKey`: a key, which is written to VX, or none, and the wait begins. -/
theorem ldVxKCommitsOrWaits : Obligations.LdVxKCommitsOrWaits := by
  unfold Obligations.LdVxKCommitsOrWaits
  intro x s
  constructor
  · intro k hkey hlowest
    have hpick : s.pickKey = some k := pickKey_eq_some.2 ⟨hkey, hlowest⟩
    exact ⟨_, exec_ldVxK_of_pickKey_eq_some hpick, toNat_of_eq_byteOfKey (setV_v_same s x _), onlyChanges_setV s x _⟩
  · intro hreleased
    have hpick : s.pickKey = none := pickKey_eq_none.2 hreleased
    exact ⟨_, exec_ldVxK_of_pickKey_eq_none hpick, rfl, onlyChanges_with_status s _⟩

/-- Settles O47: LD Vx, DT is the write of one register, VF or another, with the delay timer's byte. -/
theorem ldVxDtReadsTheTimer : Obligations.LdVxDtReadsTheTimer := by
  unfold Obligations.LdVxDtReadsTheTimer
  intro x s
  exact Alu.next_of_exec_eq_setV exec_ldVxDt

/-- Settles O49: LD DT, Vx is the write of the one field. -/
theorem ldDtVxWritesTheTimer : Obligations.LdDtVxWritesTheTimer := by
  unfold Obligations.LdDtVxWritesTheTimer
  intro x s
  exact ⟨_, exec_ldDtVx, rfl, onlyChanges_with_dt s _⟩

end Sys2Proof.KeysTimers
end

section
/-! SUPPORT. The execute phase as data. Executing an instruction is one of eleven effects, chosen from what the
instruction reads, and an effect acts on each part of the state by itself. Frames, faults and independence of a part are
then said of the effects, and of the 26 instructions only which effect each one has. -/

namespace Sys2Proof.Effects

open Sys2Proof Sys2Proof.Machine

/-- What executing an instruction comes to. -/
inductive Effect where
  /-- Write a byte to a register. -/
  | write (x : RegIdx) (b : Byte)
  /-- Write a byte to a register and then the flag to VF. -/
  | flagged (x : RegIdx) (b : Byte) (flag : Bool)
  /-- Write a byte to a register, having drawn once. -/
  | drawn (x : RegIdx) (b : Byte)
  /-- Write the delay timer. -/
  | delay (b : Byte)
  /-- Write the sound timer. -/
  | sound (b : Byte)
  /-- Skip where the condition holds. -/
  | skip (c : Bool)
  | jump (target : Word)
  /-- Store the return address in slot `j` and go to the target. -/
  | callTo (target : Word) (j : Fin Config.stackDepth) (back : Word)
  /-- Go to the target, `j` return addresses left. -/
  | returnTo (target : Word) (j : Fin Config.stackDepth)
  | fault (r : FaultRecord)
  /-- Begin a key wait. -/
  | wait (x : RegIdx)

/-- The state an effect leads to. -/
def Effect.apply (e : Effect) (s : State) : State :=
  match e with
  | .write x b => s.setV x b
  | .flagged x b flag => writeFlagged s x b flag
  | .drawn x b => { s with draws := s.draws + 1 }.setV x b
  | .delay b => { s with dt := b }
  | .sound b => { s with st := b }
  | .skip c => s.skipIf c
  | .jump target => s.jump target
  | .callTo target j back => { s with stack := s.stack.set j.val back j.isLt, sp := j.succ, pc := target }
  | .returnTo target j => { s with sp := j.castSucc, pc := target }
  | .fault r => { s with status := .faulted r }
  | .wait x => { s with status := .waitKey x }

/-- The record of a fault of the instruction in execution (spec/60_exceptions.md R201). -/
def recordOf (c : Cause) (s : State) : FaultRecord := ⟨c, s.latch.addr, s.latch.word⟩

/-- The effect of SKP and SKNP (spec/45_keys_timers.md R170, R171). -/
def keyEffect (x : RegIdx) (want : Bool) (s : State) : Effect :=
  match keyOfByte (s.v x) with
  | none => .fault (recordOf .keyIndexOutOfRange s)
  | some k => .skip (s.key k == want)

/-- The effect of ADD Vx, byte, by the parameter (spec/43_immediate.md R141). -/
def addByteEffect (x : RegIdx) (nn : Byte) (s : State) : Effect :=
  if s.params.addImmSetsVF then .flagged x (sum8 (s.v x) nn) (carry (s.v x) nn) else .write x (sum8 (s.v x) nn)

/-- The effect of RET (spec/41_control_flow.md R120). -/
def retEffect (s : State) : Effect :=
  if h : s.sp.val = 0 then .fault (recordOf .stackUnderflow s)
  else
    have hlt : s.sp.val - 1 < Config.stackDepth := by have := s.sp.isLt; omega
    .returnTo s.stack[s.sp.val - 1] ⟨s.sp.val - 1, hlt⟩

/-- The effect of CALL (spec/41_control_flow.md R122). -/
def callEffect (nnn : Addr) (s : State) : Effect :=
  if h : s.sp.val < Config.stackDepth then .callTo (zextAddr nnn) ⟨s.sp.val, h⟩ s.pc
  else .fault (recordOf .stackOverflow s)

/-- The effect of LD Vx, K (spec/45_keys_timers.md R173). -/
def waitEffect (x : RegIdx) (s : State) : Effect :=
  match s.pickKey with
  | some k => .write x (byteOfKey k)
  | none => .wait x

/-- The effect of an instruction in the state it executes in. -/
def effect (i : Instr) (s : State) : Effect :=
  match i with
  | .ret => retEffect s
  | .jp nnn => .jump (zextAddr nnn)
  | .call nnn => callEffect nnn s
  | .seByte x nn => .skip (s.v x == nn)
  | .sneByte x nn => .skip (s.v x != nn)
  | .seReg x y => .skip (s.v x == s.v y)
  | .ldByte x nn => .write x nn
  | .addByte x nn => addByteEffect x nn s
  | .ldReg x y => .write x (s.v y)
  | .or x y => .write x (s.v x ||| s.v y)
  | .and x y => .write x (s.v x &&& s.v y)
  | .xor x y => .write x (s.v x ^^^ s.v y)
  | .addReg x y => .flagged x (sum8 (s.v x) (s.v y)) (carry (s.v x) (s.v y))
  | .sub x y => .flagged x (diff8 (s.v x) (s.v y)) (borrow (s.v x) (s.v y))
  | .shr x y => .flagged x (shr8 (s.v y)) (lowBit (s.v y))
  | .subn x y => .flagged x (diff8 (s.v y) (s.v x)) (borrow (s.v y) (s.v x))
  | .shl x y => .flagged x (shl8 (s.v y)) (highBit (s.v y))
  | .sneReg x y => .skip (s.v x != s.v y)
  | .jpV0 nnn => .jump (zextAddr nnn + zextByte (s.v v0))
  | .rnd x nn => .drawn x (Config.rndByte s.draws &&& nn)
  | .skp x => keyEffect x true s
  | .sknp x => keyEffect x false s
  | .ldVxDt x => .write x s.dt
  | .ldVxK x => waitEffect x s
  | .ldDtVx x => .delay (s.v x)
  | .ldStVx x => .sound (s.v x)

/-! ### The model's `exec` is the effect applied -/

section Exec
variable (s : State) (x : RegIdx)

theorem exec_ret : exec .ret s = .next ((retEffect s).apply s) := by
  obtain ⟨hsp, hpop⟩ | ⟨n, hn, hsp, hpop⟩ := pop_cases s
  · have he : retEffect s = .fault (recordOf .stackUnderflow s) := by simp [retEffect, hsp]
    rw [ControlFlow.exec_ret_of_pop_eq_none hpop, he]
    rfl
  · have he : retEffect s = .returnTo s.stack[n] ⟨n, hn⟩ := by simp [retEffect, hsp]
    rw [ControlFlow.exec_ret_of_pop_eq_some hpop, he]
    rfl

theorem exec_call (nnn : Addr) : exec (.call nnn) s = .next ((callEffect nnn s).apply s) := by
  obtain ⟨hsp, hpush⟩ | ⟨hlt, hpush⟩ := push_cases s s.pc
  · have he : callEffect nnn s = .fault (recordOf .stackOverflow s) := by simp [callEffect, hsp]
    rw [ControlFlow.exec_call_of_push_eq_none hpush, he]
    rfl
  · have he : callEffect nnn s = .callTo (zextAddr nnn) ⟨s.sp.val, hlt⟩ s.pc := by simp [callEffect, hlt]
    rw [ControlFlow.exec_call_of_push_eq_some hpush, he]
    rfl

theorem exec_addByte (nn : Byte) : exec (.addByte x nn) s = .next ((addByteEffect x nn s).apply s) := by
  simp only [exec, execAddByte, addByteEffect]
  split <;> rfl

theorem skipOnKey_eq (want : Bool) : skipOnKey s x want = (keyEffect x want s).apply s := by
  unfold skipOnKey keyEffect
  cases keyOfByte (s.v x) <;> rfl

theorem exec_skp : exec (.skp x) s = .next ((keyEffect x true s).apply s) := by
  rw [← skipOnKey_eq]
  rfl

theorem exec_sknp : exec (.sknp x) s = .next ((keyEffect x false s).apply s) := by
  rw [← skipOnKey_eq]
  rfl

theorem exec_ldVxK : exec (.ldVxK x) s = .next ((waitEffect x s).apply s) := by
  simp only [exec, execLdVxK, waitEffect]
  cases s.pickKey <;> rfl

end Exec

/-- Executing an instruction applies its effect: every instruction completes in every state. -/
theorem exec_eq (i : Instr) (s : State) : exec i s = .next ((effect i s).apply s) := by
  cases i with
  | ret => exact exec_ret s
  | call nnn => exact exec_call s nnn
  | addByte x nn => exact exec_addByte s x nn
  | skp x => exact exec_skp s x
  | sknp x => exact exec_sknp s x
  | ldVxK x => exact exec_ldVxK s x
  | _ => rfl

/-! ### What no effect writes -/

section Untouched
variable (e : Effect) (s : State)

@[simp] theorem apply_index : (e.apply s).index = s.index := by cases e <;> simp [Effect.apply]
@[simp] theorem apply_keys : (e.apply s).keys = s.keys := by cases e <;> simp [Effect.apply]
@[simp] theorem apply_lastKey : (e.apply s).lastKey = s.lastKey := by cases e <;> simp [Effect.apply]
@[simp] theorem apply_stopped : (e.apply s).stopped = s.stopped := by cases e <;> simp [Effect.apply]
@[simp] theorem apply_mem : (e.apply s).mem = s.mem := by cases e <;> simp [Effect.apply]
@[simp] theorem apply_params : (e.apply s).params = s.params := by cases e <;> simp [Effect.apply]
@[simp] theorem apply_reports : (e.apply s).reports = s.reports := by cases e <;> simp [Effect.apply]
@[simp] theorem apply_started : (e.apply s).started = s.started := by cases e <;> simp [Effect.apply]

end Untouched

end Sys2Proof.Effects
end

section
/-! SUPPORT. The frames of the writes that the earlier sections do not have: a flagged write, ST, `draws`, `pc` and
`sp`, a slot. -/

namespace Sys2Proof.Frames

open Sys2Proof Sys2Proof.Machine

theorem onlyChanges_writeFlagged (s : State) (x : RegIdx) (b : Byte) (flag : Bool) :
    OnlyChanges [.reg x, .reg vf] s (writeFlagged s x b flag) :=
  onlyChanges_append (onlyChanges_setV s x b) (onlyChanges_setV _ vf (flagByte flag))

theorem onlyChanges_with_st (s : State) (b : Byte) : OnlyChanges [.st] s { s with st := b } := by
  intro p hp
  cases p with
  | st => exact absurd List.mem_cons_self hp
  | _ => rfl

theorem onlyChanges_with_draws (s : State) (n : Nat) : OnlyChanges [.draws] s { s with draws := n } := by
  intro p hp
  cases p with
  | draws => exact absurd List.mem_cons_self hp
  | _ => rfl

theorem onlyChanges_with_sp (s : State) (n : Fin (Config.stackDepth + 1)) :
    OnlyChanges [.sp] s { s with sp := n } := by
  intro p hp
  cases p with
  | sp => exact absurd List.mem_cons_self hp
  | _ => rfl

theorem onlyChanges_setSlot (s : State) (j : Fin Config.stackDepth) (a : Word) :
    OnlyChanges [.slot j] s { s with stack := s.stack.set j.val a j.isLt } := by
  intro p hp
  cases p with
  | slot i =>
    have hij : j.val ≠ i.val := fun he => hp (by simp [Fin.ext he])
    exact Vector.getElem_set_ne j.isLt i.isLt hij
  | _ => rfl

end Sys2Proof.Frames
end

section
/-! SUPPORT. What an effect writes, what it leaves in each part, and the frames of the instructions. -/

namespace Sys2Proof.Effects

open Sys2Proof Sys2Proof.Machine Sys2Proof.Frames

/-! ### Frames -/

/-- The parts an effect may change. -/
def Effect.writes : Effect → List Part
  | .write x _ => [.reg x]
  | .flagged x _ _ => [.reg x, .reg vf]
  | .drawn x _ => [.reg x, .draws]
  | .delay _ => [.dt]
  | .sound _ => [.st]
  | .skip _ => [.pc]
  | .jump _ => [.pc]
  | .callTo _ j _ => [.pc, .sp, .slot j]
  | .returnTo _ _ => [.pc, .sp]
  | .fault _ => [.status]
  | .wait _ => [.status]

theorem apply_frame (e : Effect) (s : State) : OnlyChanges e.writes s (e.apply s) := by
  cases e with
  | write x b => exact onlyChanges_setV s x b
  | flagged x b flag => exact onlyChanges_writeFlagged s x b flag
  | drawn x b =>
    have h := onlyChanges_append (onlyChanges_with_draws s (s.draws + 1)) (onlyChanges_setV _ x b)
    exact onlyChanges_mono h (by simp [Effect.writes])
  | delay b => exact onlyChanges_with_dt s b
  | sound b => exact onlyChanges_with_st s b
  | skip c => exact Skips.onlyChanges_skipIf s c
  | jump target => exact onlyChanges_jump s target
  | callTo target j back =>
    have h := onlyChanges_append (onlyChanges_append (onlyChanges_setSlot s j back) (onlyChanges_with_sp _ j.succ))
      (onlyChanges_jump _ target)
    exact onlyChanges_mono h (by simp [Effect.writes])
  | returnTo target j =>
    have h := onlyChanges_append (onlyChanges_with_sp s j.castSucc) (onlyChanges_jump _ target)
    exact onlyChanges_mono h (by simp [Effect.writes])
  | fault r => exact onlyChanges_with_status s _
  | wait x => exact onlyChanges_with_status s _

/-- An instruction's effect writes what the tables of writers give the instruction (spec/10_state.md R22, R38). -/
theorem writes_subset_mayWrite (i : Instr) (s : State) : ∀ p ∈ (effect i s).writes, p ∈ mayWrite i s := by
  cases i with
  | ret =>
    simp only [effect, retEffect, mayWrite]
    split <;> simp [Effect.writes]
  | call nnn =>
    simp only [effect, callEffect, mayWrite]
    split <;> simp [Effect.writes]
  | addByte x nn =>
    simp only [effect, addByteEffect, mayWrite]
    split <;> simp [Effect.writes]
  | skp x | sknp x =>
    simp only [effect, keyEffect, mayWrite]
    split <;> simp [Effect.writes]
  | ldVxK x =>
    simp only [effect, waitEffect, mayWrite]
    split <;> simp [Effect.writes]
  | _ => exact fun _ hp => hp

/-- The frame of an instruction. -/
theorem effect_frame (i : Instr) (s : State) : OnlyChanges (mayWrite i s) s ((effect i s).apply s) :=
  onlyChanges_mono (apply_frame _ s) (writes_subset_mayWrite i s)

/-- Settles O51: an instruction applies its effect, which writes no more than the tables list. -/
theorem everyInstructionKeepsItsFrame : Obligations.EveryInstructionKeepsItsFrame := by
  unfold Obligations.EveryInstructionKeepsItsFrame
  intro i s
  exact ⟨_, exec_eq i s, effect_frame i s⟩

/-! ### What an effect writes does not depend on what stood there -/

section Independence
variable {s t : State} {p : Part} {e : Effect}

/-- Two states that agree in `pc` and in the draw counter, from which a skip and a draw count on, get the same in every
part that the effect writes. -/
theorem apply_same_of_mem_writes (hpc : t.pc = s.pc) (hdraws : t.draws = s.draws) (hp : p ∈ e.writes) :
    p.Same (e.apply s) (e.apply t) := by
  cases e <;> simp only [Effect.writes, List.mem_cons, List.not_mem_nil, or_false] at hp
  case write x b =>
    subst hp
    exact (setV_v_same t x b).trans (setV_v_same s x b).symm
  case flagged x b flag => obtain rfl | rfl := hp <;> simp [Part.Same, Effect.apply]
  case drawn x b =>
    obtain rfl | rfl := hp
    · exact (setV_v_same _ x b).trans (setV_v_same _ x b).symm
    · exact congrArg (· + 1) hdraws
  case skip c =>
    subst hp
    simp [Part.Same, Effect.apply, hpc]
  case callTo target j back =>
    obtain rfl | rfl | rfl := hp
    · rfl
    · rfl
    · exact (Vector.getElem_set_self j.isLt).trans (Vector.getElem_set_self j.isLt).symm
  case returnTo target j => obtain rfl | rfl := hp <;> rfl
  all_goals
    subst hp
    rfl

/-- Two states that agree in a part the effect does not write still agree in it. -/
theorem apply_same_of_not_mem_writes (h : p.Same s t) (hp : p ∉ e.writes) : p.Same (e.apply s) (e.apply t) := by
  have hs := apply_frame e s p hp
  have ht := apply_frame e t p hp
  cases p <;> exact ht.trans (h.trans hs.symm)

end Independence

/-- Writing a register that an instruction does not read leaves its effect the same (spec/10_state.md R22). -/
theorem effect_setV_of_not_mem_readRegs {i : Instr} {r : RegIdx} (b : Byte) (s : State) (hr : r ∉ readRegs i) :
    effect i (s.setV r b) = effect i s := by
  have hv : ∀ q ∈ readRegs i, (s.setV r b).v q = s.v q := fun q hq =>
    (State.setV_v s r b q).trans (if_neg fun he : q = r => hr (he ▸ hq))
  cases i <;> simp only [readRegs, List.forall_mem_cons, List.not_mem_nil] at hv
  case seByte | sneByte | seReg | sneReg | ldReg | or | and | xor | addReg | sub | subn | shr | shl | jpV0 | ldDtVx |
      ldStVx =>
    simp only [effect, hv]
  case addByte => simp only [effect, addByteEffect, hv, State.setV_params]
  case skp | sknp =>
    simp only [effect, keyEffect, hv]
    rfl
  all_goals rfl

/-- Settles O52: the effect is the same from both states, so they get the same where it writes, and elsewhere each keeps
its own. -/
theorem unreadRegistersDoNotMatter : Obligations.UnreadRegistersDoNotMatter := by
  unfold Obligations.UnreadRegistersDoNotMatter
  intro i r b s hr
  have hother : exec i (s.setV r b) = .next ((effect i s).apply (s.setV r b)) := by
    rw [exec_eq, effect_setV_of_not_mem_readRegs b s hr]
  refine ⟨_, _, exec_eq i s, hother, fun p hp => ?_, ?_⟩
  · by_cases hw : p ∈ (effect i s).writes
    · exact apply_same_of_mem_writes rfl rfl hw
    · exact apply_same_of_not_mem_writes (onlyChanges_setV s r b p (by simpa using hp)) hw
  · by_cases hw : .reg r ∈ (effect i s).writes
    · exact .inl (apply_same_of_mem_writes (p := .reg r) rfl rfl hw)
    · exact .inr ⟨apply_frame _ s _ hw, (apply_frame _ (s.setV r b) _ hw).trans (setV_v_same s r b)⟩

/-! ### Faults and waits -/

/-- An effect changes the status only to a fault or a wait of its own. -/
theorem apply_status_cases (e : Effect) (s : State) :
    (∃ r, e = .fault r ∧ (e.apply s).status = .faulted r) ∨ (∃ x, e = .wait x ∧ (e.apply s).status = .waitKey x) ∨
      (∀ r, e ≠ .fault r) ∧ (e.apply s).status = s.status := by
  cases e with
  | fault r => exact .inl ⟨r, rfl, rfl⟩
  | wait x => exact .inr (.inl ⟨x, rfl, rfl⟩)
  | skip c => exact .inr (.inr ⟨by simp, State.skipIf_status s c⟩)
  | _ => exact .inr (.inr ⟨by simp, rfl⟩)

/-- An instruction's effect is a fault exactly where its single check fires (spec/60_exceptions.md R200, R203). -/
theorem effect_eq_fault_iff {i : Instr} {s : State} {r : FaultRecord} :
    effect i s = .fault r ↔ ∃ c, faultOf i s = some c ∧ recordOf c s = r := by
  cases i with
  | ret =>
    simp only [effect, retEffect, faultOf]
    split <;> simp
  | call nnn =>
    simp only [effect, callEffect, faultOf]
    obtain ⟨h, -⟩ | ⟨h, -⟩ := push_cases s s.pc
    · simp [h]
    · simp [h, h.ne]
  | addByte x nn =>
    simp only [effect, addByteEffect, faultOf]
    split <;> simp
  | skp x | sknp x =>
    simp only [effect, keyEffect, faultOf, ← keyOfByte_eq_none]
    split <;> simp_all
  | ldVxK x =>
    simp only [effect, waitEffect, faultOf]
    split <;> simp
  | _ => simp [effect, faultOf]

/-- Only LD Vx, K begins a wait (spec/45_keys_timers.md R173). -/
theorem eq_ldVxK_of_effect_eq_wait {i : Instr} {s : State} {x : RegIdx} (h : effect i s = .wait x) : i = .ldVxK x := by
  cases i with
  | ret =>
    simp only [effect, retEffect] at h
    split at h <;> cases h
  | call nnn =>
    simp only [effect, callEffect] at h
    split at h <;> cases h
  | addByte x nn =>
    simp only [effect, addByteEffect] at h
    split at h <;> cases h
  | skp x | sknp x =>
    simp only [effect, keyEffect] at h
    split at h <;> cases h
  | ldVxK y =>
    simp only [effect, waitEffect] at h
    split at h <;> cases h
    rfl
  | _ => cases h

/-- Settles O54: a check that fires makes the effect the fault of its record, which writes only `status`; where none
fires the effect is no fault. -/
theorem faultsAreExactAndPrecise : Obligations.FaultsAreExactAndPrecise := by
  unfold Obligations.FaultsAreExactAndPrecise
  intro i s hrun
  refine ⟨_, exec_eq i s, fun c hc => ?_, fun hnone r hr => ?_⟩
  · rw [effect_eq_fault_iff.2 ⟨c, hc, rfl⟩]
    rfl
  · obtain ⟨r', he, -⟩ | ⟨x, -, hx⟩ | ⟨-, hkeep⟩ := apply_status_cases (effect i s) s
    · obtain ⟨c, hc, -⟩ := effect_eq_fault_iff.1 he
      cases hnone.symm.trans hc
    · cases hx.symm.trans hr
    · cases (hrun.symm.trans hkeep.symm).trans hr

/-! ### `I` and the key latch -/

/-- The state with another `I` and another key latch. -/
def withInert (a : Word) (l : LastKey) (s : State) : State := { s with index := a, lastKey := l }

/-- No effect depends on `I` or on the key latch, and none is written by one (spec/10_state.md R26, R32). -/
theorem effect_withInert (i : Instr) (a : Word) (l : LastKey) (s : State) :
    effect i (withInert a l s) = effect i s := by
  cases i <;> rfl

theorem apply_withInert (e : Effect) (a : Word) (l : LastKey) (s : State) :
    e.apply (withInert a l s) = withInert a l (e.apply s) := by
  cases e with
  | skip c => cases c <;> rfl
  | _ => rfl

end Sys2Proof.Effects
end

section
/-! SUPPORT. The core's step by its four forms, and what each form leaves in the state (spec/40_sequencer.md). -/

namespace Sys2Proof.Steps

open Sys2Proof Sys2Proof.Machine Sys2Proof.Effects

/-- The four forms of a step that is taken (R100, R107). -/
inductive CoreStep (s : State) : State → Prop where
  | fetchFault (hrun : s.status = .run) (hgo : s.stopped = false) (hpc : 0xFFE < s.pc.toNat) : CoreStep s s.fetchFault
  | instr (w : Word) (i : Instr) (hrun : s.status = .run) (hgo : s.stopped = false) (hfetch : s.fetch = some w)
    (hdecode : decode w = .instr i) : CoreStep s ((effect i (s.advance w)).apply (s.advance w))
  | unknown (w : Word) (hrun : s.status = .run) (hgo : s.stopped = false) (hfetch : s.fetch = some w)
    (hdecode : decode w = .unknown) : CoreStep s (execUnknown (s.advance w))
  | complete (x : RegIdx) (k : KeyIdx) (hwait : s.status = .waitKey x) (hgo : s.stopped = false)
    (hpick : s.pickKey = some k) : CoreStep s (s.completeWait x k)

theorem step_eq_next_iff {s t : State} : step s = .next t ↔ CoreStep s t := by
  rw [step_eq_next]
  constructor
  · rintro (⟨hrun, hgo, ⟨hpc, rfl⟩ | ⟨w, i, hfetch, hdecode, hexec⟩ | ⟨w, hfetch, hdecode, rfl⟩⟩ |
      ⟨x, k, hwait, hgo, hpick, rfl⟩)
    · exact .fetchFault hrun hgo hpc
    · rw [exec_eq] at hexec
      cases hexec
      exact .instr w i hrun hgo hfetch hdecode
    · exact .unknown w hrun hgo hfetch hdecode
    · exact .complete x k hwait hgo hpick
  · intro h
    cases h with
    | fetchFault hrun hgo hpc => exact .inl ⟨hrun, hgo, .inl ⟨hpc, rfl⟩⟩
    | instr w i hrun hgo hfetch hdecode =>
      exact .inl ⟨hrun, hgo, .inr (.inl ⟨w, i, hfetch, hdecode, exec_eq i _⟩)⟩
    | unknown w hrun hgo hfetch hdecode => exact .inl ⟨hrun, hgo, .inr (.inr ⟨w, hfetch, hdecode, rfl⟩)⟩
    | complete x k hwait hgo hpick => exact .inr ⟨x, k, hwait, hgo, hpick, rfl⟩

/-! ### When a step is enabled -/

section Enabled
variable {s : State}

/-- Running and not stopped, the core always has a step. -/
theorem exists_next_of_run (hrun : s.status = .run) (hgo : s.stopped = false) : ∃ t, step s = .next t := by
  cases hfetch : s.fetch with
  | none => exact ⟨_, step_eq_next_iff.2 (.fetchFault hrun hgo (fetch_eq_none.1 hfetch))⟩
  | some w =>
    cases hdecode : decode w with
    | instr i => exact ⟨_, step_eq_next_iff.2 (.instr w i hrun hgo hfetch hdecode)⟩
    | unknown => exact ⟨_, step_eq_next_iff.2 (.unknown w hrun hgo hfetch hdecode)⟩

/-- Waiting and not stopped, the core has a step once a key is pressed (spec/45_keys_timers.md R173). -/
theorem exists_next_of_waitKey {x : RegIdx} {k : KeyIdx} (hwait : s.status = .waitKey x) (hgo : s.stopped = false)
    (hkey : s.key k = true) : ∃ t, step s = .next t := by
  cases hpick : s.pickKey with
  | none => exact absurd hkey (by simp [pickKey_eq_none.1 hpick k])
  | some j => exact ⟨_, step_eq_next_iff.2 (.complete x j hwait hgo hpick)⟩

theorem enabled_of_coreStep {t : State} (h : CoreStep s t) :
    s.stopped = false ∧ (s.status = .run ∨ ∃ x, s.status = .waitKey x ∧ ∃ k, s.key k = true) := by
  cases h with
  | fetchFault hrun hgo | instr _ _ hrun hgo | unknown _ hrun hgo => exact ⟨hgo, .inl hrun⟩
  | complete x k hwait hgo hpick => exact ⟨hgo, .inr ⟨x, hwait, k, (pickKey_eq_some.1 hpick).1⟩⟩

theorem step_of_turn_ended {r : FaultRecord} (h : s.turn = .ended r) : step s = .fault (.terminated r) := by
  simp only [step, h]

theorem step_of_turn_hold {h : Hold} (hturn : s.turn = .hold h) : step s = .refused (.held h) := by
  simp only [step, hturn]

end Enabled

/-- Settles O13: the four forms of a step are taken in just the states the statement names, and the turn names the
stop. -/
theorem stepIsEnabledExactly : Obligations.StepIsEnabledExactly := by
  unfold Obligations.StepIsEnabledExactly
  refine ⟨fun s => ⟨fun ⟨t, h⟩ => enabled_of_coreStep (step_eq_next_iff.1 h), ?_⟩, fun s r h => ?_, fun s h hstop => ?_,
    fun s x hwait hgo hkeys => ?_⟩
  · rintro ⟨hgo, hrun | ⟨x, hwait, k, hkey⟩⟩
    · exact exists_next_of_run hrun hgo
    · exact exists_next_of_waitKey hwait hgo hkey
  · exact step_of_turn_ended (turn_eq_ended.2 h)
  · exact step_of_turn_hold (turn_eq_hold.2 (.inl ⟨hstop, rfl, h⟩))
  · exact step_of_turn_hold (turn_eq_hold.2 (.inr ⟨x, hgo, hwait, pickKey_eq_none.2 hkeys, rfl⟩))

/-! ### What a step leaves alone -/

/-- Executing `Unknown` writes `status` or `reports` and nothing else (spec/60_exceptions.md R204). -/
theorem execUnknown_writes (s : State) : ∃ m l, execUnknown s = { s with status := m, reports := l } := by
  obtain ⟨-, he⟩ | ⟨-, he⟩ := execUnknown_cases s
  · exact ⟨_, s.reports, he⟩
  · exact ⟨s.status, _, he⟩

/-- Settles O20, by the four forms: none of them writes these fields. -/
theorem coreStepLeavesTheEnvironmentsState : Obligations.CoreStepLeavesTheEnvironmentsState := by
  unfold Obligations.CoreStepLeavesTheEnvironmentsState
  intro s t h
  cases step_eq_next_iff.1 h with
  | fetchFault | complete => exact ⟨rfl, rfl, rfl, rfl, rfl, rfl⟩
  | instr w i => simp
  | unknown w =>
    obtain ⟨m, l, he⟩ := execUnknown_writes (s.advance w)
    rw [he]
    exact ⟨rfl, rfl, rfl, rfl, rfl, rfl⟩

theorem execUnknown_withInert (a : Word) (l : LastKey) (s : State) :
    execUnknown (withInert a l s) = withInert a l (execUnknown s) := by
  obtain ⟨hp, he⟩ | ⟨hp, he⟩ := execUnknown_cases s <;>
  · rw [he, execUnknown, show (withInert a l s).params = s.params from rfl, hp]
    rfl

/-- A step with another `I` and key latch is the same step. -/
theorem coreStep_withInert {s t : State} (a : Word) (l : LastKey) (h : CoreStep s t) :
    CoreStep (withInert a l s) (withInert a l t) := by
  cases h with
  | fetchFault hrun hgo hpc => exact .fetchFault hrun hgo hpc
  | instr w i hrun hgo hfetch hdecode =>
    have hstep := CoreStep.instr (s := withInert a l s) w i hrun hgo hfetch hdecode
    rwa [show (withInert a l s).advance w = withInert a l (s.advance w) from rfl, effect_withInert,
      apply_withInert] at hstep
  | unknown w hrun hgo hfetch hdecode =>
    rw [← execUnknown_withInert]
    exact .unknown w hrun hgo hfetch hdecode
  | complete x k hwait hgo hpick => exact .complete x k hwait hgo hpick

/-- Settles O53: each form of a step goes over to the state with the other `I` and latch. -/
theorem indexAndKeyLatchAreInert : Obligations.IndexAndKeyLatchAreInert := by
  unfold Obligations.IndexAndKeyLatchAreInert
  intro s t a l h
  exact step_eq_next_iff.2 (coreStep_withInert a l (step_eq_next_iff.1 h))

/-! ### Where a step leaves `pc` -/

/-- An ordinary instruction does not write `pc` (R105). -/
theorem pc_not_mem_mayWrite_of_ordinary {i : Instr} (h : pcClass i = .ordinary) (s : State) : .pc ∉ mayWrite i s := by
  cases i with
  | addByte x nn =>
    simp only [mayWrite]
    split <;> simp
  | ldByte | ldReg | or | and | xor | addReg | sub | shr | subn | shl | rnd | ldVxDt | ldVxK | ldDtVx | ldStVx =>
    simp [mayWrite]
  | _ => cases h

/-- A skip instruction skips or faults. -/
theorem effect_of_skipClass {i : Instr} (h : pcClass i = .skip) (s : State) :
    (∃ c, effect i s = .skip c) ∨ ∃ r, effect i s = .fault r := by
  cases i with
  | seByte | sneByte | seReg | sneReg => exact .inl ⟨_, rfl⟩
  | skp x | sknp x =>
    simp only [effect, keyEffect]
    split
    · exact .inr ⟨_, rfl⟩
    · exact .inl ⟨_, rfl⟩
  | _ => cases h

theorem apply_pc_of_skipClass {i : Instr} (h : pcClass i = .skip) (s : State) :
    ((effect i s).apply s).pc = s.pc ∨ ((effect i s).apply s).pc = s.pc + 2 := by
  obtain ⟨c, he⟩ | ⟨r, he⟩ := effect_of_skipClass h s <;> rw [he]
  · cases c
    · exact .inl rfl
    · exact .inr rfl
  · exact .inl rfl

/-- Settles O55: after the advance phase an ordinary instruction leaves `pc`, by its frame, and a skip adds 2 or
nothing. -/
theorem stepAdvancesPcByClass : Obligations.StepAdvancesPcByClass := by
  unfold Obligations.StepAdvancesPcByClass
  intro s t w i hrun hgo hfetch hdecode hstep
  rw [Sequencer.step_eq_exec hrun hgo hfetch hdecode, exec_eq] at hstep
  cases hstep
  refine ⟨fun hclass => ?_, fun hclass => ?_⟩
  · exact effect_frame i (s.advance w) .pc (pc_not_mem_mayWrite_of_ordinary hclass _)
  · refine (apply_pc_of_skipClass hclass (s.advance w)).imp_right fun h => h.trans ?_
    rw [State.advance_pc, BitVec.add_assoc]
    rfl

/-! ### The call stack -/

/-- Only RET and CALL may write `sp` (spec/10_state.md R28). -/
theorem ret_or_call_of_sp_mem_mayWrite {i : Instr} {s : State} (h : .sp ∈ mayWrite i s) :
    i = .ret ∨ ∃ nnn, i = .call nnn := by
  cases i with
  | ret => exact .inl rfl
  | call nnn => exact .inr ⟨nnn, rfl⟩
  | addByte x nn =>
    simp only [mayWrite] at h
    split at h <;> simp at h
  | _ => simp [mayWrite] at h

/-- The one slot an instruction may write is the next free one (spec/10_state.md R27). -/
theorem val_eq_sp_of_slot_mem_mayWrite {i : Instr} {s : State} {j : Fin Config.stackDepth}
    (h : .slot j ∈ mayWrite i s) : j.val = s.sp.val := by
  cases i with
  | call nnn =>
    simp only [mayWrite] at h
    split at h <;> simp at h
    exact congrArg Fin.val h
  | addByte x nn =>
    simp only [mayWrite] at h
    split at h <;> simp at h
  | _ => simp [mayWrite] at h

/-- An effect of RET that moves `sp` moves it down by one, one of CALL up by one. -/
theorem apply_retEffect_sp {s : State} (h : ((retEffect s).apply s).sp ≠ s.sp) :
    ((retEffect s).apply s).sp.val + 1 = s.sp.val := by
  unfold retEffect at h ⊢
  split at h
  · exact absurd rfl h
  · next hsp =>
    rw [dif_neg hsp]
    exact Nat.sub_add_cancel (Nat.pos_of_ne_zero hsp)

theorem apply_callEffect_sp {s : State} {nnn : Addr} (h : ((callEffect nnn s).apply s).sp ≠ s.sp) :
    ((callEffect nnn s).apply s).sp.val = s.sp.val + 1 := by
  unfold callEffect at h ⊢
  split at h
  · next hsp =>
    rw [dif_pos hsp]
    rfl
  · exact absurd rfl h

/-- Settles O56: of the four forms only an instruction can write the stack, by its frame only CALL and RET write `sp`,
and the slot CALL writes is none below it. -/
theorem onlyCallAndRetMoveTheStack : Obligations.OnlyCallAndRetMoveTheStack := by
  unfold Obligations.OnlyCallAndRetMoveTheStack
  intro s t h
  cases step_eq_next_iff.1 h with
  | fetchFault | complete => exact ⟨fun hsp => absurd rfl hsp, fun _ _ => rfl⟩
  | instr w i hrun hgo hfetch hdecode =>
    have hframe := effect_frame i (s.advance w)
    refine ⟨fun hsp => ⟨w, hfetch, ?_⟩, fun j hj => hframe (.slot j) fun hmem => ?_⟩
    · have hmem : .sp ∈ mayWrite i (s.advance w) := by
        by_contra hn
        exact hsp (hframe .sp hn)
      obtain rfl | ⟨nnn, rfl⟩ := ret_or_call_of_sp_mem_mayWrite hmem
      · exact .inr ⟨hdecode, apply_retEffect_sp hsp⟩
      · exact .inl ⟨⟨nnn, hdecode⟩, apply_callEffect_sp hsp⟩
    · exact hj.ne (val_eq_sp_of_slot_mem_mayWrite hmem)
  | unknown w =>
    obtain ⟨m, l, he⟩ := execUnknown_writes (s.advance w)
    rw [he]
    exact ⟨fun hsp => absurd rfl hsp, fun _ _ => rfl⟩

/-! ### The fetch, and what a step runs -/

section Fetch
variable {s : State} {w : Word} {hi lo : Byte}

/-- The number of a word is read from its bytes high byte first (spec/20_memory.md R53). -/
theorem wordOfBytes_toNat (hi lo : Byte) : (wordOfBytes hi lo).toNat = hi.toNat * 256 + lo.toNat :=
  Laws.append_toNat hi lo

theorem fetch_of_read (hhi : s.mem.read s.pc.toNat = some hi) (hlo : s.mem.read (s.pc.toNat + 1) = some lo) :
    s.fetch = some (wordOfBytes hi lo) := by
  rw [fetch_eq_wordAt, wordAt, hhi, hlo]

theorem tableWord_toNat (w : Word) : tableWord 16 w.toNat = w := by
  rw [tableWord, Nat.mod_eq_of_lt w.isLt, BitVec.ofNat_toNat, BitVec.setWidth_eq]

/-- A word placed at `pc` is the one fetched there. -/
theorem fetch_placeWord (hm : s.mem.Wf) (hpc : s.pc.toNat ≤ 0xFFE) : (s.placeWord w).fetch = some w := by
  have hfits : s.pc.toNat + [(bytesOfWord w).1, (bytesOfWord w).2].length ≤ Config.memSize := by
    simp only [List.length_cons, List.length_nil, Config.memSize]
    omega
  rw [fetch_of_read (s := s.placeWord w) (hi := (bytesOfWord w).1) (lo := (bytesOfWord w).2),
    Laws.wordOfBytes_bytesOfWord]
  · simp [Memory.read_writeAll hm hfits]
  · simp [Memory.read_writeAll hm hfits]

end Fetch

/-- Settles O8: the fetched word is the two bytes put together. -/
theorem fetchReadsHighByteFirst : Obligations.FetchReadsHighByteFirst := by
  unfold Obligations.FetchReadsHighByteFirst
  intro s hi lo hhi hlo
  exact ⟨_, fetch_of_read hhi hlo, wordOfBytes_toNat hi lo⟩

/-- Settles O9: the first form of a step. -/
theorem fetchAboveMemoryFaults : Obligations.FetchAboveMemoryFaults := by
  unfold Obligations.FetchAboveMemoryFaults
  intro s hrun hgo hpc
  exact step_eq_next_iff.2 (.fetchFault hrun hgo hpc)

/-- Settles O11: the word placed is the one fetched, and it decodes to the instruction it encodes. -/
theorem placedWordIsTheOneRun : Obligations.PlacedWordIsTheOneRun := by
  unfold Obligations.PlacedWordIsTheOneRun
  intro s i hm hrun hgo hpc
  rw [State.withFetchWord, tableWord_toNat]
  exact Sequencer.step_eq_exec hrun hgo (fetch_placeWord hm hpc) (Encoding.decode_encode i)

/-- Settles O12, by the two policies: a fault of the fetched word, or a report of it. -/
theorem unknownFollowsThePolicy : Obligations.UnknownFollowsThePolicy := by
  unfold Obligations.UnknownFollowsThePolicy
  intro s w hrun hgo hfetch hdecode
  have hstep : step s = .next (execUnknown (s.advance w)) :=
    step_eq_next_iff.2 (.unknown w hrun hgo hfetch hdecode)
  obtain ⟨hp, he⟩ | ⟨hp, he⟩ := execUnknown_cases (s.advance w) <;>
  · rw [State.advance_params] at hp
    rw [hstep, he, hp]
    rfl

end Sys2Proof.Steps
end

section
/-! SUPPORT. The environment's actions (spec/60_exceptions.md section 6, spec/70_reset_and_hazards.md): what each writes,
and what all but a reset leave to the core. -/

namespace Sys2Proof.Environment

open Sys2Proof Sys2Proof.Machine Sys2Proof.Frames

/-! ### Actions leave the core's state -/

/-- The two states agree in all that only the core writes (spec/60_exceptions.md R206). -/
structure SameCore (s t : State) : Prop where
  regs : t.regs = s.regs
  pc : t.pc = s.pc
  index : t.index = s.index
  stack : t.stack = s.stack
  sp : t.sp = s.sp
  status : t.status = s.status
  latch : t.latch = s.latch
  params : t.params = s.params
  draws : t.draws = s.draws
  reports : t.reports = s.reports
  started : t.started = s.started

/-- An action but a reset is a load, taken before the first step, or leaves memory too. -/
theorem act_cases {a : EnvAction} {s t : State} (ha : a ≠ .reset) (h : act a s = .next t) :
    (∃ image, s.started = false ∧ image.length ≤ 3584 ∧ t = { s with mem := s.mem.writeAll 0x200 image }) ∨
      SameCore s t ∧ t.mem = s.mem := by
  cases a with
  | reset => exact absurd rfl ha
  | load image => exact .inl ⟨image, load_eq_next.1 h⟩
  | _ =>
    cases h
    exact .inr ⟨⟨rfl, rfl, rfl, rfl, rfl, rfl, rfl, rfl, rfl, rfl, rfl⟩, rfl⟩

theorem act_sameCore {a : EnvAction} {s t : State} (ha : a ≠ .reset) (h : act a s = .next t) : SameCore s t := by
  obtain ⟨image, -, -, rfl⟩ | ⟨hcore, -⟩ := act_cases ha h
  · exact ⟨rfl, rfl, rfl, rfl, rfl, rfl, rfl, rfl, rfl, rfl, rfl⟩
  · exact hcore

theorem act_mem_of_started {a : EnvAction} {s t : State} (ha : a ≠ .reset) (h : act a s = .next t)
    (hstarted : s.started = true) : t.mem = s.mem := by
  obtain ⟨_, hfresh, -⟩ | ⟨-, hmem⟩ := act_cases ha h
  · cases hstarted.symm.trans hfresh
  · exact hmem

/-- Settles O21: a load writes memory only, and only before the first step; the other actions write no field of the
core's. -/
theorem environmentLeavesTheCoresState : Obligations.EnvironmentLeavesTheCoresState := by
  unfold Obligations.EnvironmentLeavesTheCoresState
  intro a s t ha h
  obtain ⟨hregs, hpc, hindex, hstack, hsp, hstatus, hlatch, hparams, hdraws, hreports, hstarted⟩ := act_sameCore ha h
  exact ⟨hregs, hpc, hindex, hstack, hsp, hstatus, hlatch, hparams, hdraws, hreports, hstarted, act_mem_of_started ha h⟩

/-! ### One action at a time -/

theorem onlyChanges_timerTick (s : State) : OnlyChanges [.dt, .st] s s.timerTick :=
  onlyChanges_append (onlyChanges_with_dt s (countDown s.dt)) (onlyChanges_with_st _ (countDown s.st))

/-- Settles O22: a tick is two writes, each of a timer counted down. -/
theorem timerTickCountsDown : Obligations.TimerTickCountsDown := by
  unfold Obligations.TimerTickCountsDown
  intro s
  exact ⟨s.timerTick, rfl, countDown_toNat s.dt, countDown_toNat s.st, onlyChanges_timerTick s⟩

theorem onlyChanges_setKey (s : State) (k : KeyIdx) (p : Bool) : OnlyChanges [.key k] s (s.setKey k p) := by
  intro part hpart
  cases part with
  | key j =>
    have hj : j ≠ k := fun he => hpart (by simp [he])
    exact (State.setKey_key s k p j).trans (if_neg hj)
  | _ => rfl

/-- Settles O23: `set_key` is the write of one key. -/
theorem setKeyWritesOneKey : Obligations.SetKeyWritesOneKey := by
  unfold Obligations.SetKeyWritesOneKey
  intro s k p
  exact ⟨s.setKey k p, rfl, (State.setKey_key s k p k).trans (if_pos rfl), onlyChanges_setKey s k p⟩

theorem onlyChanges_with_lastKey (s : State) (l : LastKey) : OnlyChanges [.lastKey] s { s with lastKey := l } := by
  intro p hp
  cases p with
  | lastKey => exact absurd List.mem_cons_self hp
  | _ => rfl

theorem onlyChanges_with_stopped (s : State) (b : Bool) : OnlyChanges [.stopped] s { s with stopped := b } := by
  intro p hp
  cases p with
  | stopped => exact absurd List.mem_cons_self hp
  | _ => rfl

theorem step_ne_next_of_stopped {s : State} (h : s.stopped = true) (t : State) : step s ≠ .next t := by
  intro hstep
  cases h.symm.trans (Steps.enabled_of_coreStep (Steps.step_eq_next_iff.1 hstep)).1

/-- Settles O24: each of the two actions is the write of one field, and a step is taken only where the flag is false. -/
theorem latchAndStopActionsWriteOneField : Obligations.LatchAndStopActionsWriteOneField := by
  unfold Obligations.LatchAndStopActionsWriteOneField
  intro s k h b
  exact ⟨⟨_, rfl, rfl, onlyChanges_with_lastKey s ⟨k, h⟩⟩,
    ⟨_, rfl, rfl, onlyChanges_with_stopped s b, fun hb => step_ne_next_of_stopped hb⟩⟩

/-! ### Reset -/

section Fresh
variable (p : Config.Params) (n : Nat)

@[simp] theorem fresh_v (r : RegIdx) : (State.fresh p n).v r = 0 := by simp [State.v, State.fresh]

@[simp] theorem fresh_key (k : KeyIdx) : (State.fresh p n).key k = false := by simp [State.key, State.fresh]

theorem fresh_stack (j : Fin 48) : (State.fresh p n).stack[j] = 0 := by simp [State.fresh]

theorem fresh_mem_read {a : Nat} (h : a < 4096) : (State.fresh p n).mem.read a = some 0 :=
  (Memory.read_eq _ a).trans (if_pos h)

end Fresh

/-- Settles O25: a reset builds the fresh machine, which holds the table's values. -/
theorem resetGivesTheTablesValues : Obligations.ResetGivesTheTablesValues := by
  unfold Obligations.ResetGivesTheTablesValues
  intro s
  exact ⟨s.resetNow, rfl, fresh_v _ _, rfl, rfl, fresh_stack _ _, rfl, rfl, rfl, rfl, rfl, fresh_key _ _,
    fun _ => fresh_mem_read _ _, rfl, rfl⟩

/-! ### Load -/

section Load
variable {s : State} {image : List Byte}

theorem act_load_of_fits (hstarted : s.started = false) (hfits : image.length ≤ 3584) :
    act (.load image) s = .next { s with mem := s.mem.writeAll 0x200 image } :=
  load_eq_next.2 ⟨hstarted, hfits, rfl⟩

theorem act_load_of_long (hstarted : s.started = false) (hlong : 3584 < image.length) :
    act (.load image) s = .refused .imageTooLong := by
  have himage : imageOk image = false := decide_eq_false (Nat.not_le.2 hlong)
  simp only [act, State.load, hstarted, himage, Bool.false_eq_true, if_false]

theorem act_load_of_started (hstarted : s.started = true) : act (.load image) s = .refused .loadAfterStart := by
  simp only [act, State.load, hstarted, if_true]

/-- The last byte of an image that fits goes to 0xFFF at the highest (spec/70_reset_and_hazards.md R243). -/
theorem image_end_le_memSize (hfits : image.length ≤ 3584) : 0x200 + image.length ≤ Config.memSize := by
  simp only [Config.memSize]
  omega

/-- Inside the image a read after the load gives the image's byte. -/
theorem read_image {m : Memory} (hm : m.Wf) (hfits : image.length ≤ 3584) {i : Nat} {b : Byte}
    (hb : image[i]? = some b) : (m.writeAll 0x200 image).read (0x200 + i) = some b := by
  have hi : i < image.length := (List.getElem?_eq_some_iff.1 hb).1
  rw [Memory.read_writeAll hm (image_end_le_memSize hfits), if_pos (by omega), Nat.add_sub_cancel_left, hb]

/-- Outside the image a read after the load gives what stood there. -/
theorem read_outside_image {m : Memory} (hm : m.Wf) (hfits : image.length ≤ 3584) {a : Nat}
    (ha : a < 0x200 ∨ 0x200 + image.length ≤ a) : (m.writeAll 0x200 image).read a = m.read a := by
  rw [Memory.read_writeAll hm (image_end_le_memSize hfits), if_neg (by omega)]

end Load

/-- Settles O26, by the load's two checks: an image that passes them is written byte by byte from 0x200 on. -/
theorem loadCopiesTheImage : Obligations.LoadCopiesTheImage := by
  unfold Obligations.LoadCopiesTheImage
  intro image s
  refine ⟨fun hm hstarted hfits => ?_, act_load_of_long, act_load_of_started⟩
  exact ⟨_, act_load_of_fits hstarted hfits, fun _ _ => read_image hm hfits, fun _ => read_outside_image hm hfits,
    Memory.wf_writeAll hm (image_end_le_memSize hfits), rfl⟩

/-- Settles O27: the load puts the first two bytes where the fresh machine's `pc` points. -/
theorem bootedMachineFetchesTheImage : Obligations.BootedMachineFetchesTheImage := by
  unfold Obligations.BootedMachineFetchesTheImage
  intro p hi lo rest hfits
  refine ⟨_, act_load_of_fits (s := State.fresh p 0) rfl hfits, rfl, fresh_v p 0, rfl, _, ?_,
    Steps.wordOfBytes_toNat hi lo⟩
  exact Steps.fetch_of_read (read_image Memory.wf_nil hfits (i := 0) rfl) (read_image Memory.wf_nil hfits (i := 1) rfl)

/-! ### Ticks -/

/-- An action but a reset takes one from each timer where it is a tick, stopping at 0, and nothing where it is not. -/
theorem act_timers {a : EnvAction} {s t : State} (ha : a ≠ .reset) (h : act a s = .next t) :
    t.dt.toNat = s.dt.toNat - [a].count .timerTick ∧ t.st.toNat = s.st.toNat - [a].count .timerTick := by
  cases a with
  | reset => exact absurd rfl ha
  | load image =>
    obtain ⟨-, -, rfl⟩ := load_eq_next.1 h
    exact ⟨rfl, rfl⟩
  | timerTick =>
    cases h
    exact ⟨countDown_toNat s.dt, countDown_toNat s.st⟩
  | _ =>
    cases h
    exact ⟨rfl, rfl⟩

/-- Settles O57, by induction on the events: each takes its own count from both timers. -/
theorem timersFallByTheTicks : Obligations.TimersFallByTheTicks := by
  unfold Obligations.TimersFallByTheTicks
  intro es
  induction es with
  | nil =>
    intro s t _ h
    cases h
    exact ⟨rfl, rfl⟩
  | cons e es ih =>
    intro s t hes h
    obtain ⟨u, hu, ht⟩ := runEvents_cons_next.1 h
    obtain ⟨hcore, hreset⟩ := hes e List.mem_cons_self
    cases e with
    | core => exact absurd rfl hcore
    | env a =>
      obtain ⟨hdt, hst⟩ := act_timers (fun he => hreset (he ▸ rfl)) hu
      obtain ⟨hdt', hst'⟩ := ih u t (fun e he => hes e (List.mem_cons_of_mem _ he)) ht
      have hcount : (Event.env a :: es).count (.env .timerTick) =
          es.count (.env .timerTick) + [a].count .timerTick := by
        simp [List.count_cons]
      omega

end Sys2Proof.Environment
end

section
/-! SUPPORT. What holds along every run (spec/60_exceptions.md, spec/70_reset_and_hazards.md): the machine invariant, the
end by a fault, constant memory, and the successful end. Each is a fact about one core step and one about one action. -/

namespace Sys2Proof.Invariants

open Sys2Proof Sys2Proof.Machine Sys2Proof.Effects Sys2Proof.Steps Sys2Proof.Environment

/-! ### The invariant at reset -/

/-- A machine that runs from 0x200, unstarted, with an empty stack and no report is consistent as soon as its memory is
canonical. -/
theorem consistent_of_unstarted {s : State} (hm : s.mem.Wf) (hrun : s.status = .run) (hpc : s.pc = 0x200)
    (hsp : s.sp.val = 0) (hreports : s.reports = []) : Consistent s where
  memory := hm
  unstarted _ := ⟨hrun, hpc, hsp, hreports⟩
  waiting x hwait := by cases hrun.symm.trans hwait
  faulted r hfault := by cases hrun.symm.trans hfault
  reported r hr := by simp [hreports] at hr

theorem consistent_fresh (p : Config.Params) (n : Nat) : Consistent (State.fresh p n) :=
  consistent_of_unstarted Memory.wf_nil rfl rfl rfl rfl

/-- Settles O15: the fresh machine is unstarted, with nothing listed in memory. -/
theorem resetMachineIsConsistent : Obligations.ResetMachineIsConsistent := by
  unfold Obligations.ResetMachineIsConsistent
  exact ⟨consistent_fresh {} 0, consistent_fresh⟩

/-! ### The invariant over a core step -/

section Step
variable {s : State} {w : Word} {i : Instr}

/-- Where an instruction's check fires, the record of its address and word is true of the state (spec/60_exceptions.md
R200, R201). -/
theorem recordTrue_of_faultOf {c : Cause} {a : Word} (hfault : faultOf i s = some c)
    (hword : wordAt s.mem a.toNat = some w) (hpc : s.pc = a + 2) (hdecode : decode w = .instr i) :
    RecordTrue s ⟨c, a, w⟩ := by
  cases i <;> simp only [faultOf, Option.ite_none_right_eq_some, Option.some.injEq, reduceCtorEq] at hfault
  case ret =>
    obtain ⟨hsp, rfl⟩ := hfault
    exact ⟨hword, hpc, hsp, hdecode⟩
  case call nnn =>
    obtain ⟨hsp, rfl⟩ := hfault
    exact ⟨hword, hpc, hsp, nnn, hdecode⟩
  case skp x =>
    obtain ⟨hx, rfl⟩ := hfault
    exact ⟨hword, hpc, x, .inl hdecode, hx⟩
  case sknp x =>
    obtain ⟨hx, rfl⟩ := hfault
    exact ⟨hword, hpc, x, .inr hdecode, hx⟩

/-- The truth of a record does not depend on the status. -/
theorem recordTrue_with_status {m : Status} {r : FaultRecord} (h : RecordTrue s r) :
    RecordTrue { s with status := m } r := h

/-- The word fetched stands in memory at the address the advance phase keeps. -/
theorem wordAt_of_fetch (hfetch : s.fetch = some w) : wordAt s.mem s.pc.toNat = some w :=
  (fetch_eq_wordAt s).symm.trans hfetch

theorem consistent_fetchFault (hs : Consistent s) (hpc : 0xFFE < s.pc.toNat) : Consistent s.fetchFault where
  memory := hs.memory
  unstarted hstarted := by
    obtain ⟨-, hpc0, -⟩ := hs.unstarted hstarted
    rw [hpc0] at hpc
    exact absurd hpc (by decide)
  waiting x hwait := by cases hwait
  faulted r hfault := by
    cases hfault
    exact ⟨rfl, hpc, rfl⟩
  reported := hs.reported

theorem consistent_instr (hs : Consistent s) (hrun : s.status = .run) (hfetch : s.fetch = some w)
    (hdecode : decode w = .instr i) : Consistent ((effect i (s.advance w)).apply (s.advance w)) where
  memory := by simpa using hs.memory
  unstarted hstarted := by simp at hstarted
  waiting x hwait := by
    obtain ⟨r, -, hr⟩ | ⟨y, he, hy⟩ | ⟨-, hkeep⟩ := apply_status_cases (effect i (s.advance w)) (s.advance w)
    · cases hr.symm.trans hwait
    · cases hy.symm.trans hwait
      obtain rfl := eq_ldVxK_of_effect_eq_wait he
      refine ⟨w, ?_, hdecode⟩
      rw [he, apply_mem, show ((Effect.wait x).apply (s.advance w)).pc = s.pc + 2 from rfl, BitVec.add_sub_cancel]
      exact wordAt_of_fetch hfetch
    · cases (hkeep.trans hrun).symm.trans hwait
  faulted r hfault := by
    obtain ⟨r', he, hr⟩ | ⟨y, -, hy⟩ | ⟨-, hkeep⟩ := apply_status_cases (effect i (s.advance w)) (s.advance w)
    · cases hr.symm.trans hfault
      rw [he]
      obtain ⟨c, hc, rfl⟩ := effect_eq_fault_iff.1 he
      exact recordTrue_with_status (recordTrue_of_faultOf hc (wordAt_of_fetch hfetch) rfl hdecode)
    · cases hy.symm.trans hfault
    · cases (hkeep.trans hrun).symm.trans hfault
  reported := by simpa using hs.reported

theorem consistent_unknown (hs : Consistent s) (hrun : s.status = .run) (hfetch : s.fetch = some w)
    (hdecode : decode w = .unknown) : Consistent (execUnknown (s.advance w)) := by
  have hword := wordAt_of_fetch hfetch
  obtain ⟨hpolicy, he⟩ | ⟨hpolicy, he⟩ := execUnknown_cases (s.advance w) <;> rw [he]
  · exact {
      memory := hs.memory
      unstarted := fun hstarted => by cases hstarted
      waiting := fun x hwait => by cases hwait
      faulted := fun r hfault => by
        cases hfault
        exact ⟨hword, rfl, hdecode, hpolicy⟩
      reported := hs.reported }
  · exact {
      memory := hs.memory
      unstarted := fun hstarted => by cases hstarted
      waiting := fun x hwait => by cases hrun.symm.trans hwait
      faulted := fun r hfault => by cases hrun.symm.trans hfault
      reported := fun r hr => by
        obtain hr | hr := List.mem_append.1 hr
        · exact hs.reported r hr
        · obtain rfl := List.mem_singleton.1 hr
          exact ⟨hpolicy, rfl, hword, hdecode⟩ }

theorem consistent_completeWait {x : RegIdx} (hs : Consistent s) (hwait : s.status = .waitKey x) (k : KeyIdx) :
    Consistent (s.completeWait x k) where
  memory := hs.memory
  unstarted hstarted := by cases hwait.symm.trans (hs.unstarted hstarted).1
  waiting y hwait' := by cases hwait'
  faulted r hfault := by cases hfault
  reported := hs.reported

theorem consistent_of_coreStep {t : State} (hs : Consistent s) (h : CoreStep s t) : Consistent t := by
  cases h with
  | fetchFault hrun hgo hpc => exact consistent_fetchFault hs hpc
  | instr w i hrun hgo hfetch hdecode => exact consistent_instr hs hrun hfetch hdecode
  | unknown w hrun hgo hfetch hdecode => exact consistent_unknown hs hrun hfetch hdecode
  | complete x k hwait => exact consistent_completeWait hs hwait k

end Step

/-- Settles O16, by the four forms of a step. -/
theorem stepKeepsTheMachineConsistent : Obligations.StepKeepsTheMachineConsistent := by
  unfold Obligations.StepKeepsTheMachineConsistent
  exact fun _ _ hs h => consistent_of_coreStep hs (step_eq_next_iff.1 h)

/-! ### The invariant over an action and a run -/

/-- The invariant speaks of memory and of what the core writes only. -/
theorem consistent_of_sameCore {s t : State} (hs : Consistent s) (h : SameCore s t) (hmem : t.mem = s.mem) :
    Consistent t where
  memory := hmem ▸ hs.memory
  unstarted hstarted := by
    rw [h.status, h.pc, h.sp, h.reports]
    exact hs.unstarted (h.started ▸ hstarted)
  waiting x hwait := by
    rw [hmem, h.pc]
    exact hs.waiting x (h.status ▸ hwait)
  faulted r hfault := by
    have htrue := hs.faulted r (h.status ▸ hfault)
    simpa only [RecordTrue, hmem, h.pc, h.sp, h.params, v_eq_of_regs_eq h.regs] using htrue
  reported r hr := by
    rw [hmem, h.params]
    exact hs.reported r (h.reports ▸ hr)

/-- A load comes before the first step, where the invariant asks of memory only its form. -/
theorem consistent_load {s : State} {image : List Byte} (hs : Consistent s) (hstarted : s.started = false)
    (hfits : image.length ≤ 3584) : Consistent { s with mem := s.mem.writeAll 0x200 image } := by
  obtain ⟨hrun, hpc, hsp, hreports⟩ := hs.unstarted hstarted
  exact consistent_of_unstarted (Memory.wf_writeAll hs.memory (image_end_le_memSize hfits)) hrun hpc hsp hreports

theorem consistent_act {a : EnvAction} {s t : State} (hs : Consistent s) (h : act a s = .next t) : Consistent t := by
  by_cases ha : a = .reset
  · subst ha
    cases h
    exact consistent_fresh _ _
  · obtain ⟨image, hstarted, hfits, rfl⟩ | ⟨hcore, hmem⟩ := act_cases ha h
    · exact consistent_load hs hstarted hfits
    · exact consistent_of_sameCore hs hcore hmem

theorem consistent_transition {e : Event} {s t : State} (hs : Consistent s) (h : transition e s = .next t) :
    Consistent t := by
  cases e with
  | core => exact stepKeepsTheMachineConsistent s t hs h
  | env a => exact consistent_act hs h

/-- Settles O17: every event keeps the invariant. -/
theorem everyRunKeepsTheMachineConsistent : Obligations.EveryRunKeepsTheMachineConsistent := by
  unfold Obligations.EveryRunKeepsTheMachineConsistent
  exact fun es s t hs => runEvents_induction (ok := fun _ => True) (fun _ _ _ _ => consistent_transition) es s t
    (fun _ _ => trivial) hs

/-! ### Ends of a run and constant memory -/

theorem act_ne_reset {a : EnvAction} (h : Event.env a ≠ .env .reset) : a ≠ .reset := fun he => h (he ▸ rfl)

/-- Settles O18, by induction on the events: the first is no core step, which a Faulted state does not take, and an
action leaves the state Faulted, with the core's fields. -/
theorem aFaultEndsTheRun : Obligations.AFaultEndsTheRun := by
  unfold Obligations.AFaultEndsTheRun
  intro es
  induction es with
  | nil =>
    intro s t r hfault _ h
    cases h
    exact ⟨List.not_mem_nil, hfault, rfl, rfl, rfl, rfl⟩
  | cons e es ih =>
    intro s t r hfault hes h
    obtain ⟨u, hu, ht⟩ := runEvents_cons_next.1 h
    cases e with
    | core => cases (step_of_turn_ended (turn_eq_ended.2 hfault)).symm.trans hu
    | env a =>
      have hcore := act_sameCore (act_ne_reset (hes _ List.mem_cons_self)) hu
      obtain ⟨hnocore, hstatus, hregs, hpc, hsp, hstack⟩ :=
        ih u t r (hcore.status.trans hfault) (fun e he => hes e (List.mem_cons_of_mem _ he)) ht
      exact ⟨by simpa using hnocore, hstatus, hregs.trans hcore.regs, hpc.trans hcore.pc, hsp.trans hcore.sp,
        hstack.trans hcore.stack⟩

/-- A step keeps the mark that an instruction has been fetched. -/
theorem started_of_coreStep {s t : State} (hstarted : s.started = true) (h : CoreStep s t) : t.started = true := by
  cases h with
  | fetchFault | complete => exact hstarted
  | instr w i => simp
  | unknown w =>
    obtain ⟨m, l, he⟩ := execUnknown_writes (s.advance w)
    rw [he]
    rfl

/-- What no event but a reset changes once an instruction has been fetched. -/
def Constant (s t : State) : Prop :=
  t.mem = s.mem ∧ t.index = s.index ∧ t.params = s.params ∧ t.started = true

theorem constant_transition {e : Event} {s t u : State} (he : e ≠ .env .reset) (ht : Constant s t)
    (h : transition e t = .next u) : Constant s u := by
  obtain ⟨hmem, hindex, hparams, hstarted⟩ := ht
  cases e with
  | core =>
    obtain ⟨-, -, -, hmem', hindex', hparams'⟩ := coreStepLeavesTheEnvironmentsState t u h
    exact ⟨hmem'.trans hmem, hindex'.trans hindex, hparams'.trans hparams,
      started_of_coreStep hstarted (step_eq_next_iff.1 h)⟩
  | env a =>
    have ha := act_ne_reset he
    have hcore := act_sameCore ha h
    exact ⟨(act_mem_of_started ha h hstarted).trans hmem, hcore.index.trans hindex, hcore.params.trans hparams,
      hcore.started.trans hstarted⟩

/-- Settles O19: every event but a reset keeps them. -/
theorem memoryIsConstantOnceStarted : Obligations.MemoryIsConstantOnceStarted := by
  unfold Obligations.MemoryIsConstantOnceStarted
  intro es s t hstarted hes h
  exact runEvents_induction (P := Constant s) (fun _ _ _ => constant_transition) es s t hes ⟨rfl, rfl, rfl, hstarted⟩ h

/-- What stays of a state from a successful end on: all that the machine computes with, and that it runs. The flag
`stopped`, the keys and the timers may change. -/
structure Settled (s t : State) : Prop where
  regs : t.regs = s.regs
  pc : t.pc = s.pc
  index : t.index = s.index
  sp : t.sp = s.sp
  stack : t.stack = s.stack
  mem : t.mem = s.mem
  status : t.status = .run
  started : t.started = true

section SelfJump
variable {s t u : State} {w : Word} {nnn : Addr}

/-- A step at a jump to its own address leaves the state settled. -/
theorem settled_of_coreStep (hfetch : s.fetch = some w) (hdecode : decode w = .instr (.jp nnn))
    (hself : zextAddr nnn = s.pc) (ht : Settled s t) (h : step t = .next u) : Settled s u := by
  have hgo : t.stopped = false := (enabled_of_coreStep (step_eq_next_iff.1 h)).1
  have hfetch' : t.fetch = some w := by rw [← hfetch, fetch_eq_wordAt, fetch_eq_wordAt, ht.mem, ht.pc]
  rw [Sequencer.step_eq_exec ht.status hgo hfetch' hdecode, ControlFlow.exec_jp] at h
  cases h
  exact ⟨ht.regs, hself, ht.index, ht.sp, ht.stack, ht.mem, ht.status, rfl⟩

theorem settled_act {a : EnvAction} (ha : a ≠ .reset) (ht : Settled s t) (h : act a t = .next u) : Settled s u := by
  have hcore := act_sameCore ha h
  exact ⟨hcore.regs.trans ht.regs, hcore.pc.trans ht.pc, hcore.index.trans ht.index, hcore.sp.trans ht.sp,
    hcore.stack.trans ht.stack, (act_mem_of_started ha h ht.started).trans ht.mem, hcore.status.trans ht.status,
    hcore.started.trans ht.started⟩

end SelfJump

/-- Settles O58: a core step is again the jump to itself, since memory and `pc` stand, and an action writes no field of
the core's. -/
theorem aSuccessfulEndIsStable : Obligations.ASuccessfulEndIsStable := by
  unfold Obligations.ASuccessfulEndIsStable
  rintro es s t ⟨hrun, -, w, nnn, hfetch, hdecode, hself⟩ hstarted hes h
  have hkeep : ∀ e u v, e ≠ .env .reset → Settled s u → transition e u = .next v → Settled s v := by
    intro e u v he hu hv
    cases e with
    | core => exact settled_of_coreStep hfetch hdecode hself hu hv
    | env a => exact settled_act (act_ne_reset he) hu hv
  have hstart : Settled s s := ⟨rfl, rfl, rfl, rfl, rfl, rfl, hrun, hstarted⟩
  obtain ⟨hregs, hpc, hindex, hsp, hstack, hmem, hstatus, -⟩ := runEvents_induction hkeep es s t hes hstart h
  exact ⟨hregs, hpc, hindex, hsp, hstack, hmem, hstatus⟩

end Sys2Proof.Invariants
end

section
/-! SUPPORT. The round trip of CALL and RET, and JP V0 (spec/41_control_flow.md R122, R123). -/

namespace Sys2Proof.ControlFlow

open Sys2Proof Sys2Proof.Machine Sys2Proof.Frames

/-- A pop gives what the newest slot holds. -/
theorem pop_of_sp_eq_succ {s : State} {n : Nat} (hn : n < 48) (hsp : s.sp.val = n + 1) :
    s.pop = some (s.stack[n], { s with sp := ⟨n, Nat.lt_succ_of_lt hn⟩ }) := by
  obtain ⟨hempty, -⟩ | ⟨m, hm, hsp', hpop⟩ := pop_cases s
  · omega
  · obtain rfl : m = n := by omega
    exact hpop

/-- Settles O31: RET pops the slot that CALL pushed. -/
theorem retAfterCallReturns : Obligations.RetAfterCallReturns := by
  unfold Obligations.RetAfterCallReturns
  intro nnn s hlt
  obtain ⟨_, hpush⟩ := (push_cases s s.pc).resolve_left fun hfull => by omega
  refine ⟨_, exec_call_of_push_eq_some hpush, fun t' hstack hsp => ?_⟩
  have hpop := pop_of_sp_eq_succ hlt (congrArg Fin.val hsp)
  have hslot : t'.stack[s.sp.val] = s.pc := by
    simp only [hstack, State.jump_stack, Vector.getElem_set_self]
  exact ⟨_, exec_ret_of_pop_eq_some hpop, hslot, rfl, hstack⟩

theorem exec_jpV0 (nnn : Addr) (s : State) :
    exec (.jpV0 nnn) s = .next (s.jump (zextAddr nnn + zextByte (s.v v0))) := rfl

/-- A 12-bit address and a byte have a sum below 2^16: nothing wraps (D4). -/
theorem zextAddr_add_zextByte_toNat (nnn : Addr) (b : Byte) :
    (zextAddr nnn + zextByte b).toNat = nnn.toNat + b.toNat := by
  have := nnn.isLt
  have := b.isLt
  rw [BitVec.toNat_add, zextAddr_toNat, zextByte_toNat]
  omega

/-- Settles O32: JP V0 is the jump to a sum that does not wrap. -/
theorem jpV0GoesToTheUnmaskedSum : Obligations.JpV0GoesToTheUnmaskedSum := by
  unfold Obligations.JpV0GoesToTheUnmaskedSum
  intro nnn s
  exact ⟨_, exec_jpV0 nnn s, zextAddr_add_zextByte_toNat nnn _, onlyChanges_jump s _⟩

end Sys2Proof.ControlFlow
end

section
/-! SUPPORT. The skips on two registers (spec/42_skips.md R132, R133). -/

namespace Sys2Proof.Skips

open Sys2Proof Sys2Proof.Machine

section Exec
variable (x y : RegIdx) (s : State)

theorem exec_seReg : exec (.seReg x y) s = .next (s.skipIf (s.v x == s.v y)) := rfl

theorem exec_sneReg : exec (.sneReg x y) s = .next (s.skipIf (s.v x != s.v y)) := rfl

end Exec

/-- Settles O34: SE and SNE are `skipIf` on the one equality and on its negation. -/
theorem registerSkipsAreComplements : Obligations.RegisterSkipsAreComplements := by
  unfold Obligations.RegisterSkipsAreComplements
  intro x y s
  exact ⟨⟨_, exec_seReg x y s, skipIf_beq_pc s _ _, onlyChanges_skipIf s _⟩,
    ⟨_, exec_sneReg x y s, skipIf_bne_pc s _ _, onlyChanges_skipIf s _⟩⟩

end Sys2Proof.Skips
end

section
/-! SUPPORT. The operations with a flag (spec/44_alu.md R150, R155 to R159): each is a flagged write, of a result and of
a condition over the old operands. -/

namespace Sys2Proof.Alu

open Sys2Proof Sys2Proof.Machine Sys2Proof.Frames

/-! ### The flagged write -/

section Flagged
variable {s t : State} {x : RegIdx} {b : Byte} {flag : Bool}

/-- The result stands in VX unless X is 15. -/
theorem writeFlagged_v_of_ne (hx : x ≠ 0xF) : (writeFlagged s x b flag).v x = b :=
  (State.writeFlagged_v s x b flag x).trans ((if_neg hx).trans (if_pos rfl))

/-- The flag stands in VF also with X = 15, being written last (R150; D6). -/
theorem writeFlagged_vf_toNat : ((writeFlagged s x b flag).v 0xF).toNat = if flag then 1 else 0 := by
  rw [State.writeFlagged_v, if_pos (show (0xF : RegIdx) = vf from rfl), flagByte_toNat]

end Flagged

/-- What an instruction does that is a flagged write: what holds of the result byte holds of VX unless X is 15, and VF
holds what number the condition is. -/
theorem next_of_exec_eq_writeFlagged {i : Instr} {s : State} {x : RegIdx} {b : Byte} {flag : Bool} {P : Byte → Prop}
    {n : Nat} (h : exec i s = .next (writeFlagged s x b flag)) (hb : P b) (hn : (if flag then 1 else 0) = n) :
    ∃ t, exec i s = .next t ∧ (x ≠ 0xF → P (t.v x)) ∧ (t.v 0xF).toNat = n ∧ OnlyChanges [.reg x, .reg 0xF] s t := by
  refine ⟨_, h, fun hx => ?_, writeFlagged_vf_toNat.trans hn, onlyChanges_writeFlagged s x b flag⟩
  rwa [writeFlagged_v_of_ne hx]

/-! ### Results and conditions as numbers -/

section Numbers
variable (a b : Byte)

theorem carry_toNat : (if carry a b then 1 else 0) = if 256 ≤ a.toNat + b.toNat then 1 else 0 := by
  simp only [carry_iff]

theorem borrow_toNat : (if borrow a b then 1 else 0) = if a.toNat < b.toNat then 1 else 0 := by
  simp only [borrow_iff]

/-- The difference over the integers, brought back to a byte (spec/00_scope.md R8). -/
theorem diff8_toInt : ((diff8 a b).toNat : Int) = ((a.toNat : Int) - b.toNat) % 256 := by
  have := a.isLt
  have := b.isLt
  rw [diff8_toNat]
  omega

theorem shr8_eq : shr8 a = a >>> 1 :=
  BitVec.eq_of_toNat_eq (by rw [shr8_toNat, BitVec.toNat_ushiftRight, Nat.shiftRight_one])

theorem shl8_eq : shl8 a = a <<< 1 :=
  BitVec.eq_of_toNat_eq (by rw [shl8_toNat, BitVec.toNat_shiftLeft, Nat.shiftLeft_eq])

theorem lowBit_toNat : (if lowBit a then 1 else 0) = a.toNat % 2 := by
  rw [lowBit_eq]
  simp only [decide_eq_true_eq]
  split <;> omega

theorem highBit_toNat : (if highBit a then 1 else 0) = a.toNat / 128 := by
  have := a.isLt
  rw [highBit_eq]
  simp only [decide_eq_true_eq]
  split <;> omega

end Numbers

/-! ### The instructions -/

section Exec
variable (x y : RegIdx) (s : State)

theorem exec_addReg :
    exec (.addReg x y) s = .next (writeFlagged s x (sum8 (s.v x) (s.v y)) (carry (s.v x) (s.v y))) := rfl

theorem exec_sub :
    exec (.sub x y) s = .next (writeFlagged s x (diff8 (s.v x) (s.v y)) (borrow (s.v x) (s.v y))) := rfl

theorem exec_subn :
    exec (.subn x y) s = .next (writeFlagged s x (diff8 (s.v y) (s.v x)) (borrow (s.v y) (s.v x))) := rfl

theorem exec_shr : exec (.shr x y) s = .next (writeFlagged s x (shr8 (s.v y)) (lowBit (s.v y))) := rfl

theorem exec_shl : exec (.shl x y) s = .next (writeFlagged s x (shl8 (s.v y)) (highBit (s.v y))) := rfl

end Exec

/-- Settles O40: ADD is the flagged write of the sum and the carry. -/
theorem addRegSumsWithCarry : Obligations.AddRegSumsWithCarry := by
  unfold Obligations.AddRegSumsWithCarry
  intro x y s
  exact next_of_exec_eq_writeFlagged (P := fun b => b.toNat = _) (exec_addReg x y s) (sum8_toNat _ _) (carry_toNat _ _)

/-- Settles O41: SUB is the flagged write of the difference and the borrow. -/
theorem subSubtractsWithBorrow : Obligations.SubSubtractsWithBorrow := by
  unfold Obligations.SubSubtractsWithBorrow
  intro x y s
  exact next_of_exec_eq_writeFlagged (P := fun b => (b.toNat : Int) = _) (exec_sub x y s) (diff8_toInt _ _)
    (borrow_toNat _ _)

/-- Settles O42: SUBN is SUB with the operands of the difference and of the borrow exchanged. -/
theorem subnSubtractsReversed : Obligations.SubnSubtractsReversed := by
  unfold Obligations.SubnSubtractsReversed
  intro x y s
  exact next_of_exec_eq_writeFlagged (P := fun b => (b.toNat : Int) = _) (exec_subn x y s) (diff8_toInt _ _)
    (borrow_toNat _ _)

/-- Settles O43: SHR is the flagged write of VY halved and its lowest bit. -/
theorem shrHalvesVy : Obligations.ShrHalvesVy := by
  unfold Obligations.ShrHalvesVy
  intro x y s
  exact next_of_exec_eq_writeFlagged (P := (· = _)) (exec_shr x y s) (shr8_eq _) (lowBit_toNat _)

/-- Settles O44: SHL is the flagged write of VY doubled and its highest bit. -/
theorem shlDoublesVy : Obligations.ShlDoublesVy := by
  unfold Obligations.ShlDoublesVy
  intro x y s
  exact next_of_exec_eq_writeFlagged (P := (· = _)) (exec_shl x y s) (shl8_eq _) (highBit_toNat _)

end Sys2Proof.Alu
end

section
/-! SUPPORT. ADD Vx, byte and RND (spec/43_immediate.md R141, R142). -/

namespace Sys2Proof.Immediate

open Sys2Proof Sys2Proof.Machine Sys2Proof.Frames

section Exec
variable {x : RegIdx} {nn : Byte} {s : State}

theorem exec_addByte_of_plain (hflag : s.params.addImmSetsVF = false) :
    exec (.addByte x nn) s = .next (s.setV x (sum8 (s.v x) nn)) := by
  simp only [exec, execAddByte, hflag, Bool.false_eq_true, if_false]

theorem exec_addByte_of_flagged (hflag : s.params.addImmSetsVF = true) :
    exec (.addByte x nn) s = .next (writeFlagged s x (sum8 (s.v x) nn) (carry (s.v x) nn)) := by
  simp only [exec, execAddByte, hflag, if_true]

theorem exec_rnd : exec (.rnd x nn) s =
    .next ({ s with draws := s.draws + 1 }.setV x (Config.rndByte s.draws &&& nn)) := rfl

end Exec

/-- Settles O36, by the parameter: the write of the sum, or the flagged write of the sum and the carry. -/
theorem addByteWrapsAndFlagsByParameter : Obligations.AddByteWrapsAndFlagsByParameter := by
  unfold Obligations.AddByteWrapsAndFlagsByParameter
  intro x nn s
  refine ⟨fun hflag => ?_, fun hflag => ?_⟩
  · obtain ⟨t, hexec, hv, hframe⟩ := Alu.next_of_exec_eq_setV (exec_addByte_of_plain (x := x) (nn := nn) hflag)
    exact ⟨t, hexec, hv ▸ sum8_toNat _ _, hframe⟩
  · exact Alu.next_of_exec_eq_writeFlagged (P := fun b => b.toNat = _) (exec_addByte_of_flagged hflag)
      (sum8_toNat _ _) (Alu.carry_toNat _ _)

/-- A masked byte has no bit outside its mask. -/
theorem and_and_not_self (a nn : Byte) : (a &&& nn) &&& ~~~nn = 0 := by
  rw [BitVec.and_assoc, BitVec.and_not_self]
  exact BitVec.and_zero

/-- Settles O37: RND counts its draw and writes the masked byte. -/
theorem rndWritesTheMaskedDraw : Obligations.RndWritesTheMaskedDraw := by
  unfold Obligations.RndWritesTheMaskedDraw
  intro x nn s
  have hv : ({ s with draws := s.draws + 1 }.setV x (Config.rndByte s.draws &&& nn)).v x =
      Config.rndByte s.draws &&& nn := setV_v_same _ x _
  exact ⟨_, exec_rnd, hv, by rw [hv, and_and_not_self], rfl, Effects.apply_frame (.drawn x _) s⟩

end Sys2Proof.Immediate
end

section
/-! SUPPORT. The key tests and the sound timer (spec/45_keys_timers.md R170, R171, R175). -/

namespace Sys2Proof.KeysTimers

open Sys2Proof Sys2Proof.Machine Sys2Proof.Frames

section KeyTest
variable {s : State} {x : RegIdx} {k : KeyIdx}

theorem exec_skp : exec (.skp x) s = .next (skipOnKey s x true) := rfl

theorem exec_sknp : exec (.sknp x) s = .next (skipOnKey s x false) := rfl

theorem skipOnKey_of_key (want : Bool) (hk : (s.v x).toNat = k.toNat) :
    skipOnKey s x want = s.skipIf (s.key k == want) := by
  simp only [skipOnKey, keyOfByte_eq_some.2 hk]

theorem skipOnKey_of_no_key (want : Bool) (hx : 0xF < (s.v x).toNat) :
    skipOnKey s x want = s.raise .keyIndexOutOfRange := by
  simp only [skipOnKey, keyOfByte_eq_none.2 hx]

/-- Where VX names a key, the key test writes `pc` only. -/
theorem onlyChanges_skipOnKey_of_key (want : Bool) (hk : (s.v x).toNat = k.toNat) :
    OnlyChanges [.pc] s (skipOnKey s x want) := by
  rw [skipOnKey_of_key want hk]
  exact Skips.onlyChanges_skipIf s _

theorem skipOnKey_true_pc (hk : (s.v x).toNat = k.toNat) :
    (skipOnKey s x true).pc = if s.key k = true then s.pc + 2 else s.pc := by
  simp only [skipOnKey_of_key true hk, State.skipIf_pc, beq_true]

/-- The complement of `skipOnKey_true_pc` (R171). -/
theorem skipOnKey_false_pc (hk : (s.v x).toNat = k.toNat) :
    (skipOnKey s x false).pc = if s.key k = true then s.pc else s.pc + 2 := by
  rw [skipOnKey_of_key false hk, State.skipIf_pc]
  cases s.key k <;> rfl

/-- Where VX names no key, the key test takes its fault, which writes `status` only (D12). -/
theorem skipOnKey_faults (want : Bool) (hx : 0xF < (s.v x).toNat) :
    (skipOnKey s x want).status = .faulted ⟨.keyIndexOutOfRange, s.latch.addr, s.latch.word⟩ ∧
      OnlyChanges [.status] s (skipOnKey s x want) := by
  rw [skipOnKey_of_no_key want hx]
  exact ⟨State.raise_status s _, onlyChanges_raise s _⟩

end KeyTest

/-- Settles O45: SKP is the key test for a pressed key. -/
theorem skpSkipsOnAPressedKey : Obligations.SkpSkipsOnAPressedKey := by
  unfold Obligations.SkpSkipsOnAPressedKey
  exact fun x s => ⟨fun k hk => ⟨_, exec_skp, skipOnKey_true_pc hk, onlyChanges_skipOnKey_of_key true hk⟩,
    fun hx => ⟨_, exec_skp, skipOnKey_faults true hx⟩⟩

/-- Settles O46: SKNP is the key test for a released key. -/
theorem sknpSkipsOnAReleasedKey : Obligations.SknpSkipsOnAReleasedKey := by
  unfold Obligations.SknpSkipsOnAReleasedKey
  exact fun x s => ⟨fun k hk => ⟨_, exec_sknp, skipOnKey_false_pc hk, onlyChanges_skipOnKey_of_key false hk⟩,
    fun hx => ⟨_, exec_sknp, skipOnKey_faults false hx⟩⟩

theorem exec_ldStVx {x : RegIdx} {s : State} : exec (.ldStVx x) s = .next { s with st := s.v x } := rfl

theorem soundActive_iff (s : State) : s.soundActive = true ↔ s.st.toNat ≠ 0 := by
  rw [State.soundActive, bne_iff_ne, ne_eq, ne_eq, ← BitVec.toNat_inj]
  rfl

/-- Settles O50: LD ST, Vx is the write of the one field, of which the output is the test. -/
theorem ldStVxWritesTheSoundTimer : Obligations.LdStVxWritesTheSoundTimer := by
  unfold Obligations.LdStVxWritesTheSoundTimer
  intro x s
  exact ⟨_, exec_ldStVx, rfl, soundActive_iff _, onlyChanges_with_st s _⟩

end Sys2Proof.KeysTimers
end

section
/-! SUPPORT. The assembler (spec/30_encoding.md R84): the well-formed lines are just the lines of the instructions. -/

namespace Sys2Proof.Assembler

open Sys2Proof Sys2Proof.Laws

/-! ### An operand in range is its field's number -/

section Operands
variable {n : Nat}

theorem toNat_of_regOk (h : regOk n = true) : (BitVec.ofNat 4 n).toNat = n :=
  (BitVec.toNat_ofNat n 4).trans (Nat.mod_eq_of_lt (of_decide_eq_true h))

theorem toNat_of_byteOk (h : byteOk n = true) : (BitVec.ofNat 8 n).toNat = n :=
  (BitVec.toNat_ofNat n 8).trans (Nat.mod_eq_of_lt (of_decide_eq_true h))

theorem toNat_of_addrOk (h : addrOk n = true) : (BitVec.ofNat 12 n).toNat = n :=
  (BitVec.toNat_ofNat n 12).trans (Nat.mod_eq_of_lt (of_decide_eq_true h))

end Operands

/-! ### A well-formed line and its instruction -/

/-- A well-formed line is the line of the instruction its shape names: the check of each shape is that its operands fit
their fields. -/
theorem toAsm_of_wellFormed {l : AsmLine} (h : l.wellFormed = true) : ∃ i, shapeInstr l = some i ∧ i.toAsm = l := by
  unfold AsmLine.wellFormed at h
  split at h
  case h_1 => exact ⟨_, rfl, rfl⟩
  case h_2 | h_4 => exact ⟨_, rfl, by simp only [Instr.toAsm, toNat_of_addrOk h]⟩
  case h_3 =>
    obtain ⟨hr, ha⟩ := Bool.and_eq_true_iff.1 h
    exact ⟨_, rfl, by simp only [Instr.toAsm, eq_of_beq hr, toNat_of_addrOk ha]⟩
  case h_5 | h_7 | h_9 | h_15 | h_24 =>
    obtain ⟨hx, hn⟩ := Bool.and_eq_true_iff.1 h
    exact ⟨_, rfl, by simp only [Instr.toAsm, toNat_of_regOk hx, toNat_of_byteOk hn]⟩
  case h_6 | h_8 | h_10 | h_16 | h_17 | h_18 | h_19 | h_20 | h_21 | h_22 | h_23 =>
    obtain ⟨hx, hy⟩ := Bool.and_eq_true_iff.1 h
    exact ⟨_, rfl, by simp only [Instr.toAsm, toNat_of_regOk hx, toNat_of_regOk hy]⟩
  case h_11 | h_12 | h_13 | h_14 | h_25 | h_26 => exact ⟨_, rfl, by simp only [Instr.toAsm, toNat_of_regOk h]⟩
  case h_27 => cases h

/-- An instruction's line names the instruction by its shape. -/
theorem shapeInstr_toAsm (i : Instr) : shapeInstr i.toAsm = some i := by
  cases i <;> simp [shapeInstr, Instr.toAsm]

section Assemble
variable {l : AsmLine} {i : Instr}

theorem assemble_of_wellFormed (h : l.wellFormed = true) : assemble l = shapeInstr l := if_pos h

theorem assemble_of_not_wellFormed (h : l.wellFormed ≠ true) : assemble l = none := if_neg h

theorem assemble_toAsm (i : Instr) : assemble i.toAsm = some i :=
  (assemble_of_wellFormed (instr_wellFormed i)).trans (shapeInstr_toAsm i)

theorem wellFormed_of_assemble (h : assemble l = some i) : l.wellFormed = true := by
  by_contra hl
  cases (assemble_of_not_wellFormed hl).symm.trans h

theorem toAsm_of_assemble (h : assemble l = some i) : i.toAsm = l := by
  have hl := wellFormed_of_assemble h
  obtain ⟨j, hshape, hj⟩ := toAsm_of_wellFormed hl
  cases hshape.symm.trans ((assemble_of_wellFormed hl).symm.trans h)
  exact hj

end Assemble

/-- Settles O7: the checked shape of a line is an instruction, and that instruction's line is the line. -/
theorem assemblerLinesNameInstructions : Obligations.AssemblerLinesNameInstructions := by
  unfold Obligations.AssemblerLinesNameInstructions
  refine ⟨assemble_toAsm, fun _ _ => toAsm_of_assemble, fun l hl => ?_, fun l hl => ?_⟩
  · obtain ⟨i, hshape, -⟩ := toAsm_of_wellFormed hl
    exact ⟨i, (assemble_of_wellFormed hl).trans hshape⟩
  · exact assemble_of_not_wellFormed (by simp [hl])

end Sys2Proof.Assembler
end

section
/-! SUPPORT. Words of the opcode map, written out (spec/30_encoding.md R78, R80). -/

namespace Sys2Proof.Encoding

open Sys2Proof

/-- Settles O6: each of the words is closed, and the decoder computes. -/
theorem wordsOfTheMapDecode : Obligations.WordsOfTheMapDecode := by
  unfold Obligations.WordsOfTheMapDecode
  decide

end Sys2Proof.Encoding
end
